-- ==== Sys2Proof/Word.lean ====
section
/-! DEFINITION. The value types of the core: bytes and 32-bit words (R10, R11). All quantities are unsigned. -/

namespace Sys2Proof

/-- A byte, 8 bits, 0..255 (R10, R58). -/
abbrev Byte := BitVec 8

/-- A word, 32 bits: hash words, schedule words, working variables, round constants, headers (R8 `WORD_W`, R10). -/
abbrev Word := BitVec 32

end Sys2Proof
end

