-- ==== Sys2Proof/Config.lean ====
section
/-! DEFINITION. What is fixed for the core: the parameters of 00_scope.md R8 and R9, the type of the open parameter
`FINISH_ON_COMPUTED`, and the free values a power-on leaves in the registers (R36, R240, U8; log entry 1). -/

namespace Sys2Proof

/-- `BLOCK_BYTES`: bytes of `block_buffer`, one 512-bit block (R8). -/
abbrev Config.blockBytes : Nat := 64

/-- `DIGEST_BYTES`: bytes of the output digest, the size of `OUT` (R8, R51). -/
abbrev Config.digestBytes : Nat := 20

/-- `SCHED_WORDS`: words of the message schedule (R8). -/
abbrev Config.schedWords : Nat := 80

/-- `ROUNDS`: rounds per compression (R8, R145). -/
abbrev Config.rounds : Nat := 80

/-- `LEN_MAX`: the largest value `bit_length` may hold (R8). -/
abbrev Config.lenMax : Nat := 2 ^ 64 - 1

/-- `BITS_PER_BYTE`: increment of `bit_length` per appended byte (R8). -/
abbrev Config.bitsPerByte : Nat := 8

/-- `PAD_MARK`: the first padding byte (R8, R164). -/
abbrev Config.padMark : Byte := 0x80

/-- `LEN_FIELD_AT`: the buffer index at which the 8-byte length field starts (R8, R167). -/
abbrev Config.lenFieldAt : Nat := 56

/-- The values of the parameter `FINISH_ON_COMPUTED` (R9, R162, D8). -/
inductive FinishPolicy where
  /-- a second `FINISH` writes the digest again (the spec's default) -/
  | reserialize
  /-- a second `FINISH` fails with `StateError` and corrupts the context -/
  | stateError
deriving DecidableEq, Repr

/-- The default of `FINISH_ON_COMPUTED` (R9). The model takes the parameter as an argument, held in the state
(log entry 4), so that a claim can hold for both values. -/
def Config.defaultFinishOnComputed : FinishPolicy := .reserialize

/-! Free values (R36, R240, R241: "A model must not give the unspecified fields a value"). Each is a constant with no
body, applied to the number of the power-on: nothing can be proved about it. DESIGN CHOICE, log entries 1 and 2. -/

/-- `H[i]` after power-on number `n`. -/
opaque Config.powerOnHash (n i : Nat) : Word

/-- `bit_length` after power-on number `n`. -/
opaque Config.powerOnBitLength (n : Nat) : BitVec 64

/-- `BUF[i]` after power-on number `n`. Log entry 2. -/
opaque Config.powerOnBuf (n i : Nat) : Byte

/-- `block_index` after power-on number `n`. -/
opaque Config.powerOnBlockIndex (n : Nat) : BitVec 7

/-- `computed` after power-on number `n`. -/
opaque Config.powerOnComputed (n : Nat) : Bool

/-- `corrupted` after power-on number `n`. -/
opaque Config.powerOnCorrupted (n : Nat) : Bool

/-- `HDR` after power-on number `n`. -/
opaque Config.powerOnHdr (n : Nat) : Word

/-- `STATUS` after power-on number `n`. -/
opaque Config.powerOnStatus (n : Nat) : BitVec 2

/-- `OUT[i]` before the host or the core has written it (R36, R51, U7). Log entry 2. -/
opaque Config.hostOut (i : Nat) : Byte

end Sys2Proof
end

