-- ==== Sys2Proof/Machine/State.lean ====
section
/-! DEFINITION. The state of the core and of the host's side of it, the reasons a step can stop, and the state after
power-on (10_state.md, 20_memory.md R50 to R53, 70_reset_and_hazards.md R240, R241). -/

namespace Sys2Proof.Machine

/-- Five 32-bit words: `running_hash` = `H[0..4]` (R21), and the result of the transform (R130). -/
structure Hash where
  h0 : Word
  h1 : Word
  h2 : Word
  h3 : Word
  h4 : Word
deriving DecidableEq, Repr

/-- A byte space (R13, R50, R51): its bytes by address. Canonical form (`Memory.wf`): every address of the space listed
once, in rising order. What an unlisted address reads as is `Memory.unlisted` (Machine/Ops.lean). -/
abbrev Memory := List Host.Cell

/-- The space of `size` bytes with byte `f a` at each address `a`. -/
def Memory.filled (size : Nat) (f : Nat → Byte) : Memory := (List.range size).map fun a => (a, f a)

/-- The Context: exactly the six fields of R20. -/
structure Context where
  /-- `running_hash` = `H[0..4]` (R21) -/
  hash : Hash
  /-- `bit_length` (R22) -/
  bitLength : BitVec 64
  /-- `block_buffer` = `BUF[0..63]` (R23, R50) -/
  buf : Memory
  /-- `block_index`, 7 bits, at most 63 between commands and 64 only inside one (R24) -/
  blockIndex : BitVec 7
  /-- `computed` = `FLAGS[0]` (R25, R35) -/
  computed : Bool
  /-- `corrupted` = `FLAGS[1]` (R26, R35) -/
  corrupted : Bool
deriving DecidableEq, Repr

/-- The four statuses (R86); their numbers are `statusCode`. -/
inductive Status where
  | success
  | nullPointer
  | inputTooLong
  | stateError
deriving DecidableEq, Repr

/-- The lifecycle states (R29, R180): decoded from the state, not a register of its own. -/
inductive Lifecycle where
  | uninitialised
  | fresh
  | accepting
  | computed
  | corrupted
deriving DecidableEq, Repr

/-- What the outside can do to the machine between two commands (R17, R255, R240). -/
inductive HostMove where
  /-- the host presents a command frame: `HDR` and `PAY` (R80) -/
  | frame (hdr : Word) (pay : List Byte)
  /-- the host overwrites one byte of its own output buffer `OUT` (R255, R51) -/
  | writeOut (addr : Nat) (v : Byte)
  /-- power-on: any hardware reset that is not the `INIT` command (R240) -/
  | powerOn
deriving DecidableEq, Repr

/-- The reasons for which the machine stops. None is a status of the core: a command's errors are next states (R200). -/
inductive Fault where
  /-- Raised by `store` when `block_index > 63`: the source's checked invariant (R24, R122). Safe: no run reaches it. -/
  | cursorOutOfRange
  /-- Raised where the transform finds `BUF` without one of its 64 addresses (R50). Safe: no run reaches it. -/
  | absentByte
  /-- Raised by the host's write to an `OUT` address outside 0..19, which does not exist (R13, R51). Safe. -/
  | outAddress
deriving DecidableEq, Repr

/-- What the machine gives no behaviour. -/
inductive Refusal where
  /-- A command not modelled yet, by its mnemonic. No arm raises it: every command has its meaning. Safe. -/
  | notModelled (mnemonic : String)
  /-- Raised by `execReserved`: a header with `OP = 3` (R89 (a)). Safe. -/
  | reservedOp
  /-- Raised by `step`: `INIT` or `FINISH` with `LEN` not 0 (R89 (b)). Safe. -/
  | reservedLen
  /-- Raised by `step`: `INIT` or `APPEND` with `OV = 1` (R89 (c)). Safe. -/
  | reservedOv
  /-- Raised by `step`: a payload of another length than the header announces (R89 (d)). Safe. -/
  | payloadLength
  /-- Raised by `execAppend` and `execFinish` when the command would read an `Uninitialised` Context (R241, U3). Safe. -/
  | uninitialisedContext
deriving DecidableEq, Repr

/-- The machine. -/
structure State where
  /-- the Context (R20) -/
  ctx : Context
  /-- an `INIT` with `CV = 1` has run since power-on (R241) -/
  initialised : Bool
  /-- `HDR`, the header of the command being executed, or of the last one (R32) -/
  hdr : Word
  /-- `STATUS`, the status of the last command (R32, R86) -/
  status : BitVec 2
  /-- `OUT[0..19]`, the host's output buffer (R51) -/
  out : Memory
  /-- the parameter `FINISH_ON_COMPUTED` (R9, R162); no step writes it. The model's own field, log entry 4 -/
  finishOnComputed : FinishPolicy
  /-- the host's moves not yet made, oldest first. The model's own field, log entry 3 -/
  pending : List HostMove
  /-- how many power-ons came after the first: the argument of the free values. The model's own field, log entry 1 -/
  powerOns : Nat
deriving DecidableEq, Repr

/-- The Context after power-on number `n`: every register and every byte of `BUF` at its free value
(R36, R240, R241). DESIGN CHOICE, log entries 1 and 2. -/
def Context.poweredOn (n : Nat) : Context where
  hash :=
    ⟨Config.powerOnHash n 0, Config.powerOnHash n 1, Config.powerOnHash n 2, Config.powerOnHash n 3,
      Config.powerOnHash n 4⟩
  bitLength := Config.powerOnBitLength n
  buf := Memory.filled Config.blockBytes (Config.powerOnBuf n)
  blockIndex := Config.powerOnBlockIndex n
  computed := Config.powerOnComputed n
  corrupted := Config.powerOnCorrupted n

/-- The machine right after power-on (R36, R240): the Context `Uninitialised`, `HDR`, `STATUS` and the host's `OUT`
unspecified, the parameter at its default, no command presented yet. -/
def State.reset : State where
  ctx := Context.poweredOn 0
  initialised := false
  hdr := Config.powerOnHdr 0
  status := Config.powerOnStatus 0
  out := Memory.filled Config.digestBytes Config.hostOut
  finishOnComputed := Config.defaultFinishOnComputed
  pending := []
  powerOns := 0

end Sys2Proof.Machine
end

