-- ==== Sys2Proof/Machine/Operands.lean ====
section
/-! DEFINITION. Byte order and word operators: the forms in which the core puts bytes together and takes words apart
(R54 to R57), and the adders and rotations of the transform (R11, R135, R136). -/

namespace Sys2Proof.Machine

/-- The bytes as one unsigned number, the first byte the most significant (R13, R54). -/
def beNat (bs : List Byte) : Nat := bs.foldl (fun acc b => acc * 256 + b.toNat) 0

/-- The `n`-byte form of `v`, most significant byte first; what does not fit is cut off at the top (R13, R54). -/
def beBytes : Nat → Nat → List Byte
  | 0, _ => []
  | n + 1, v => BitVec.ofNat 8 (v / 256 ^ n) :: beBytes n v

/-- A block word from its four bytes, the lowest address the most significant (R55, R131). -/
def wordOfBytes (b0 b1 b2 b3 : Byte) : Word := BitVec.ofNat 32 (beNat [b0, b1, b2, b3])

/-- The bytes of a block as big-endian words, in address order: 16 words for the 64 bytes of a block (R55, R131). -/
def blockWords : List Byte → List Word
  | b0 :: b1 :: b2 :: b3 :: rest => wordOfBytes b0 b1 b2 b3 :: blockWords rest
  | _ => []

/-- `LEN_HI = bit_length[63:32]` (R22). -/
def lenHi (len : BitVec 64) : Word := len.extractLsb' 32 32

/-- `LEN_LO = bit_length[31:0]` (R22). -/
def lenLo (len : BitVec 64) : Word := len.extractLsb' 0 32

/-- `rotl_n`: circular left shift of a word, `0 < n < 32` (R11, R135; the spec supplies it from general knowledge, G2). -/
def rotl (n : Nat) (x : Word) : Word := (x <<< n) ||| (x >>> (32 - n))

/-- `add32` of two words: modulo 2^32, the carry dropped (R11, R136). -/
def add32 (a b : Word) : Word := a + b

/-- The five-operand adder of the round, modulo 2^32 (R136, R140). -/
def add32x5 (a b c d e : Word) : Word := a + b + c + d + e

end Sys2Proof.Machine
end

