-- ==== Sys2Proof/Machine/Compress.lean ====
section
/-! DEFINITION. The compression transform, a pure function of the hash and the block (42_compress.md R130 to R146). Its
scratch registers exist only here (R30; log entry 11). -/

namespace Sys2Proof.Machine

/-- The working variables `A..E` (R30, R134). -/
structure Work where
  a : Word
  b : Word
  c : Word
  d : Word
  e : Word
deriving DecidableEq, Repr

/-! ### Message schedule -/

/-- The next schedule word, `W[t]` for `t` the number of words already there (R132). -/
def nextScheduleWord (w : List Word) : Word :=
  rotl 1 (w.getD (w.length - 3) 0 ^^^ w.getD (w.length - 8) 0 ^^^ w.getD (w.length - 14) 0 ^^^ w.getD (w.length - 16) 0)

/-- `n` more schedule words, in ascending order of `t` (R132). -/
def extendSchedule : Nat → List Word → List Word
  | 0, w => w
  | n + 1, w => extendSchedule n (w ++ [nextScheduleWord w])

/-- `W[0..79]`: the block's 16 big-endian words, expanded by 64 more (R131, R132). -/
def schedule (blk : List Byte) : List Word := extendSchedule (Config.schedWords - 16) (blockWords blk)

/-! ### Selectors and round functions -/

/-- `choose` (R141; from general knowledge, G3). -/
def choose (x y z : Word) : Word := (x &&& y) ||| (~~~x &&& z)

/-- `parity` (R142; from general knowledge, G4). -/
def parity (x y z : Word) : Word := x ^^^ y ^^^ z

/-- `majority` (R143; from general knowledge, G5). -/
def majority (x y z : Word) : Word := (x &&& y) ||| (x &&& z) ||| (y &&& z)

/-- The stage of round `t`: `t div 20` (R137). -/
def stage (t : Nat) : Nat := t / 20

/-- `K(t)`, the constant selector (R138). -/
def roundConstant (t : Nat) : Word :=
  match stage t with
  | 0 => 0x5A827999
  | 1 => 0x6ED9EBA1
  | 2 => 0x8F1BBCDC
  | _ => 0xCA62C1D6

/-- `f(t, B, C, D)`, the function selector (R139). -/
def roundFunction (t : Nat) (b c d : Word) : Word :=
  match stage t with
  | 0 => choose b c d
  | 1 => parity b c d
  | 2 => majority b c d
  | _ => parity b c d

/-! ### Rounds and feed-forward -/

/-- `temp` of round `t` (R140). -/
def roundTemp (t : Nat) (wt : Word) (v : Work) : Word :=
  add32x5 (rotl 5 v.a) (roundFunction t v.b v.c v.d) v.e (roundConstant t) wt

/-- Round `t` on schedule word `wt`: all right-hand sides use the old values (R140). -/
def runRound (t : Nat) (wt : Word) (v : Work) : Work where
  a := roundTemp t wt v
  b := v.a
  c := rotl 30 v.b
  d := v.c
  e := v.d

/-- The rounds on the schedule words that are left, the first of them round `t`, in ascending order (R145). -/
def roundsFrom : Nat → List Word → Work → Work
  | _, [], v => v
  | t, wt :: ws, v => roundsFrom (t + 1) ws (runRound t wt v)

/-- `A..E` on entry, position by position (R134). -/
def loadWork (h : Hash) : Work := ⟨h.h0, h.h1, h.h2, h.h3, h.h4⟩

/-- The element-wise addition back into the hash: five independent lanes (R146, R150). -/
def feedForward (h : Hash) (v : Work) : Hash :=
  ⟨add32 h.h0 v.a, add32 h.h1 v.b, add32 h.h2 v.c, add32 h.h3 v.d, add32 h.h4 v.e⟩

/-- `Compress(h, blk)` (R130). -/
@[irreducible] def compress (h : Hash) (blk : List Byte) : Hash :=
  feedForward h (roundsFrom 0 (schedule blk) (loadWork h))

end Sys2Proof.Machine
end

