-- ==== Sys2Proof/Syntax.lean ====
section
/-! DEFINITION. The commands (R3, R80, R88): one constructor per row of spec/opcode_table.json. -/

namespace Sys2Proof

/-- One decoded command frame. -/
inductive Instr where
  /-- `INIT` (R82, R100). `cv`: the context reference is valid. -/
  | init (cv : Bool)
  /-- `APPEND` (R83, R110). `pay` is `PAY[0..n-1]`; a legal frame carries exactly `LEN` bytes, so `LEN` is its length. -/
  | append (cv : Bool) (pay : List Byte)
  /-- `FINISH` (R84, R160). `ov`: the output reference is valid. -/
  | finish (cv ov : Bool)
  /-- The reserved operation `OP = 3` (R89 (a)): header bits 31:2 and whatever payload came with it. -/
  | reserved (rest : BitVec 30) (pay : List Byte)
deriving DecidableEq, Repr

end Sys2Proof
end

