-- ==== Sys2Proof/WellFormed.lean ====
section
/-! DEFINITION. Which command terms a frame can carry: the operand bounds of 30_encoding.md. -/

namespace Sys2Proof

/-- The payload fits the 28-bit `LEN` field (R81, R83, R253: at most `2^28 - 1` bytes in one frame).
Every other operand is bounded by its type. -/
def Instr.wf : Instr → Bool
  | .init _ => true
  | .append _ pay => decide (pay.length < 2 ^ 28)
  | .finish _ _ => true
  | .reserved _ _ => true

end Sys2Proof
end

