-- ==== Sys2Proof/Decode.lean ====
section
/-! DEFINITION. Decoding a frame (R80 to R89), and the encoder. A frame is the pair of the 32-bit header `HDR` and the
payload `PAY` (R80); how its bits travel is not architectural, so there is no byte order of the header. -/

namespace Sys2Proof

/-- `OP = HDR[1:0]` (R81). -/
def hdrOp (hdr : Word) : BitVec 2 := hdr.extractLsb' 0 2

/-- `CV = HDR[2]` (R81). -/
def hdrCv (hdr : Word) : Bool := hdr.getLsbD 2

/-- `OV = HDR[3]` (R81). -/
def hdrOv (hdr : Word) : Bool := hdr.getLsbD 3

/-- `LEN = HDR[31:4]`, an unsigned byte count, neither scaled nor shifted (R81, R85). -/
def hdrLen (hdr : Word) : BitVec 28 := hdr.extractLsb' 4 28

/-- Why a frame is no command: the reserved frames of R89 that keep a legal `OP`. -/
inductive DecodeError where
  /-- R89 (b): `LEN` is not 0 in `INIT` or `FINISH` -/
  | reservedLen
  /-- R89 (c): `OV` is 1 in `INIT` or `APPEND` -/
  | reservedOv
  /-- R89 (d): the payload has fewer or more bytes than the frame's header announces -/
  | payloadLength
deriving DecidableEq, Repr

/-- The frame's command, or the name of what is reserved about it. Total on every header and payload.
`INIT` and `FINISH` frames have no payload (R52, R80); one that carries bytes is rejected like R89 (d)
(DEDUCED, log entry 10). -/
def decode (hdr : Word) (pay : List Byte) : Except DecodeError Instr :=
  if hdrOp hdr = 0 then
    if hdrOv hdr then .error .reservedOv
    else if hdrLen hdr ≠ 0 then .error .reservedLen
    else if pay.length ≠ 0 then .error .payloadLength
    else .ok (.init (hdrCv hdr))
  else if hdrOp hdr = 1 then
    if hdrOv hdr then .error .reservedOv
    else if pay.length ≠ (hdrLen hdr).toNat then .error .payloadLength
    else .ok (.append (hdrCv hdr) pay)
  else if hdrOp hdr = 2 then
    if hdrLen hdr ≠ 0 then .error .reservedLen
    else if pay.length ≠ 0 then .error .payloadLength
    else .ok (.finish (hdrCv hdr) (hdrOv hdr))
  else .ok (.reserved (hdr.extractLsb' 2 30) pay)

/-- The header word of the four fields (R81), bit 31 first. -/
def packHeader (len : BitVec 28) (ov cv : Bool) (op : BitVec 2) : Word :=
  (len ++ BitVec.ofBool ov ++ BitVec.ofBool cv ++ op : BitVec (28 + 1 + 1 + 2))

/-- The frame of a command: formats I (R82), A (R83) and F (R84), and `OP = 3` (R89 (a)). -/
def encode : Instr → Word × List Byte
  | .init cv => (packHeader 0 false cv 0, [])
  | .append cv pay => (packHeader (BitVec.ofNat 28 pay.length) false cv 1, pay)
  | .finish cv ov => (packHeader 0 ov cv 2, [])
  | .reserved rest pay => ((rest ++ (3 : BitVec 2) : BitVec (30 + 2)), pay)

/-- The header of a frame whose bits are `w`, numbered from bit 0 of the header: bits 31:0. -/
def frameHdr (nbits w : Nat) : Word := BitVec.ofNat 32 (w % 2 ^ nbits)

/-- The payload that goes with it: for `OP = 1`, `LEN` bytes, byte `k` from bits `39 + 8k : 32 + 8k` of `w`, those above
`nbits` being 0; otherwise none. -/
def framePay (nbits w : Nat) : List Byte :=
  if hdrOp (frameHdr nbits w) = 1 then
    (List.range (hdrLen (frameHdr nbits w)).toNat).map
      fun k => BitVec.ofNat 8 ((w % 2 ^ nbits) >>> (32 + 8 * k))
  else []

/-- The command the decoder reads from a frame whose bits are `w`; `none` where it rejects. -/
def decodeTableWord (nbits w : Nat) : Option Instr :=
  match decode (frameHdr nbits w) (framePay nbits w) with
  | .ok i => some i
  | .error _ => none

/-! ### Textual form and pseudo-commands (R90, R91) -/

/-- A reference of a listing: its name when it is valid, `null` when not (R90). -/
def refText (valid : Bool) (name : String) : String := if valid then name else "null"

/-- A hexadecimal digit, lower case. -/
def hexDigit (n : Nat) : Char := Char.ofNat (if n < 10 then 48 + n else 87 + n)

/-- A byte as two hexadecimal digits (R90). -/
def byteText (b : Byte) : String := String.singleton (hexDigit (b.toNat / 16)) ++ String.singleton (hexDigit (b.toNat % 16))

/-- The bytes of a listing, separated by spaces; two quotation marks for the empty payload (R90). -/
def bytesText : List Byte → String
  | [] => "\"\""
  | b :: bs => bs.foldl (fun acc b => acc ++ " " ++ byteText b) (byteText b)

/-- The line of a listing that stands for a command (R90); a reserved frame has none. -/
def Instr.text : Instr → Option String
  | .init cv => some ("init " ++ refText cv "ctx")
  | .append cv pay => some ("append " ++ refText cv "ctx" ++ ", " ++ bytesText pay)
  | .finish cv ov => some ("finish " ++ refText cv "ctx" ++ ", " ++ refText ov "out")
  | .reserved _ _ => none

/-- A byte string cut into consecutive pieces of at most `2^28 - 1` bytes, each the payload of one frame (R91, R253). The
number bounds the pieces. -/
def cutPayload : Nat → List Byte → List (List Byte)
  | 0, _ => []
  | n + 1, m =>
    if m.length < 2 ^ 28 then [m] else m.take (2 ^ 28 - 1) :: cutPayload n (m.drop (2 ^ 28 - 1))

/-- `append ctx, <bytes>` for a byte list of any length: one frame, or more in order (R91). -/
def appendCommands (m : List Byte) : List Instr := (cutPayload (m.length / (2 ^ 28 - 1) + 1) m).map (.append true)

/-- The pseudo-command `hash ctx, out, <bytes>`: `INIT`, `APPEND`, `FINISH` (R91). -/
def hashCommands (m : List Byte) : List Instr := .init true :: appendCommands m ++ [.finish true true]

end Sys2Proof
end

