-- ==== Sys2Proof/Machine/Flags.lean ====
section
/-! DEFINITION. The two flags, the length-overflow condition, the cursor comparisons, the status numbers and the
lifecycle state read off the flags (R24 to R26, R29, R34, R35, R86, R114). -/

namespace Sys2Proof.Machine

/-- The numbers of the statuses (R86). -/
def statusCode : Status → BitVec 2
  | .success => 0
  | .nullPointer => 1
  | .inputTooLong => 2
  | .stateError => 3

/-- `FLAGS`: bit 0 `computed`, bit 1 `corrupted` (R35). -/
def flagsOf (c : Context) : BitVec 2 :=
  (BitVec.ofBool c.corrupted ++ BitVec.ofBool c.computed : BitVec (1 + 1))

/-- `corrupted <- 1` (R26, R206). -/
def setCorrupted (c : Context) : Context := { c with corrupted := true }

/-- `computed <- 1` (R25, R169). -/
def setComputed (c : Context) : Context := { c with computed := true }

/-- Adding 8 to `bit_length` would exceed `2^64 - 1`, on natural numbers (R114). -/
def lengthWouldOverflow (c : Context) : Bool :=
  decide (c.bitLength.toNat + Config.bitsPerByte > Config.lenMax)

/-- `block_full`, the block-full detector: `block_index == 64` (R115). -/
def blockFull (c : Context) : Bool := c.blockIndex.toNat == Config.blockBytes

/-- The cursor stands at the length field: `block_index == 56` (R165). -/
def atLengthField (c : Context) : Bool := c.blockIndex.toNat == Config.lenFieldAt

/-- The first five hash words (R100, R103). -/
def initialHash : Hash := ⟨0x67452301, 0xEFCDAB89, 0x98BADCFE, 0x10325476, 0xC3D2E1F0⟩

/-- The lifecycle state (R29, R180): `Corrupted` whenever `corrupted = 1`; `Fresh` is the case of `Accepting` that
`INIT` leaves. -/
def State.lifecycle (s : State) : Lifecycle :=
  if !s.initialised then .uninitialised
  else if s.ctx.corrupted then .corrupted
  else if s.ctx.computed then .computed
  else if s.ctx.bitLength == 0 && s.ctx.blockIndex == 0 && s.ctx.hash == initialHash then .fresh
  else .accepting

end Sys2Proof.Machine
end

