-- ==== Sys2Proof/Machine/Ops.lean ====
section
/-! DEFINITION. The named operations over the byte spaces and the registers: memory primitives (R13), the return of a
status (R14), the error entry (R206) and the recovery from one (R208, R100), and what the host does between commands. -/

namespace Sys2Proof.Machine

/-! ### The byte spaces -/

/-- What an address that no entry lists reads as: nothing. In a space in canonical form such an address does not exist
(R13; log entry 2). -/
def Memory.unlisted : Option Byte := none

/-- The byte at an address. -/
def Memory.read : Memory → Nat → Option Byte
  | [], _ => Memory.unlisted
  | (k, v) :: rest, a => if k = a then some v else Memory.read rest a

/-- Store one byte; the entries stay in rising order. -/
def Memory.write : Memory → Nat → Byte → Memory
  | [], a, v => [(a, v)]
  | (k, w) :: rest, a, v =>
    if a < k then (a, v) :: (k, w) :: rest
    else if a = k then (a, v) :: rest
    else (k, w) :: Memory.write rest a v

/-- Store bytes at rising addresses. -/
def Memory.writeBytes : Memory → Nat → List Byte → Memory
  | m, _, [] => m
  | m, a, b :: bs => Memory.writeBytes (m.write a b) (a + 1) bs

/-- The `n` bytes from an address on, if each has a value. -/
def Memory.readBytes (m : Memory) : Nat → Nat → Option (List Byte)
  | _, 0 => some []
  | a, n + 1 =>
    match m.read a, Memory.readBytes m (a + 1) n with
    | some b, some bs => some (b :: bs)
    | _, _ => none

/-- The addresses rise strictly, from `lo` on. -/
def Memory.risesFrom : Nat → Memory → Bool
  | _, [] => true
  | lo, (k, _) :: rest => decide (lo ≤ k) && Memory.risesFrom (k + 1) rest

/-- Every address of a space of `size` bytes is listed. -/
def Memory.full (size : Nat) (m : Memory) : Bool := (m.readBytes 0 size).isSome

/-- The canonical form of a space of `size` bytes: addresses strictly rising, inside the space, and none missing. (That no
entry equals what an unlisted address reads as holds of itself: an unlisted address is outside the space.) -/
def Memory.wf (size : Nat) (m : Memory) : Bool :=
  Memory.risesFrom 0 m && (m.all fun c => decide (c.1 < size)) && Memory.full size m

/-- `MemRead(S, addr, n)`: n bytes as one big-endian number (R13). -/
def memRead (m : Memory) (addr n : Nat) : Option Nat := (m.readBytes addr n).map beNat

/-- `MemWrite(S, addr, n, v)`: the n-byte big-endian form of v (R13). -/
@[irreducible] def memWrite (m : Memory) (addr n v : Nat) : Memory := m.writeBytes addr (beBytes n v)

/-- `for i in 0..63: MemWrite(BUF, i, 1, 0x00)` (R100, R169). -/
@[irreducible] def zeroBuf (m : Memory) : Memory := m.writeBytes 0 (List.replicate Config.blockBytes 0)

/-! ### Status, error entry, recovery -/

/-- `return S`: `STATUS` is written, once, and the command ends (R14, R32). -/
def returnStatus (st : Status) (s : State) : State := { s with status := statusCode st }

/-- Taking an exception, the one shared operation (R206): if the context reference is valid, `corrupted <- 1`; then
`STATUS <- code`; then the command ends. Nothing is saved and control goes nowhere. -/
def errorEntry (cv : Bool) (st : Status) (s : State) : State :=
  returnStatus st (if cv then { s with ctx := setCorrupted s.ctx } else s)

/-- The Context that `INIT` leaves, whatever it held before (R100). -/
def initContext (c : Context) : Context where
  hash := initialHash
  bitLength := 0
  buf := zeroBuf c.buf
  blockIndex := 0
  computed := false
  corrupted := false

/-- The return from an error, the only one: `INIT` on a valid context starts a new computation (R101, R208, R242). -/
def recover (s : State) : State := { s with ctx := initContext s.ctx, initialised := true }

/-! ### The host's side -/

/-- The core takes the frame at the head of the queue: its header stands in `HDR` (R32), and the frame is consumed
whole, payload and all, whatever its command does (R52, D23). -/
def acceptFrame (hdr : Word) (rest : List HostMove) (s : State) : State :=
  { s with hdr := hdr, pending := rest }

/-- The host overwrites one byte of `OUT` (R255); an address outside 0..19 does not exist (R51). -/
def hostWriteOut (addr : Nat) (v : Byte) (s : State) : Host.Outcome State Fault Refusal :=
  if addr < Config.digestBytes then .next { s with out := s.out.write addr v } else .fault .outAddress

/-- Power-on: the Context, `HDR` and `STATUS` lose their values and the context is `Uninitialised`; `OUT`, the host's
memory, is what the host left there (R240, R241). -/
def powerOn (s : State) : State :=
  { s with
    ctx := Context.poweredOn (s.powerOns + 1)
    initialised := false
    hdr := Config.powerOnHdr (s.powerOns + 1)
    status := Config.powerOnStatus (s.powerOns + 1)
    powerOns := s.powerOns + 1 }

/-- The refusal of a frame the decoder rejects (R89). -/
def refusalOfDecode : DecodeError → Refusal
  | .reservedLen => .reservedLen
  | .reservedOv => .reservedOv
  | .payloadLength => .payloadLength

end Sys2Proof.Machine
end

