-- ==== Sys2Proof/Machine/Accumulator.lean ====
section
/-! DEFINITION. The operations on the buffer that `APPEND` and `FINISH` share: `Store`, `FlushIfFull`, and the transform
run on `BUF` (R113, R115, R168). -/

namespace Sys2Proof.Machine

/-- `Store(v)` (R113). Its precondition `block_index <= 63` is checked, never met by truncation (R24, R122). -/
def store (v : Byte) (c : Context) : Except Fault Context :=
  if c.blockIndex.toNat < Config.blockBytes then
    .ok { c with buf := c.buf.write c.blockIndex.toNat v, blockIndex := c.blockIndex + 1 }
  else .error .cursorOutOfRange

/-- `H <- Compress(H, BUF[0..63])`, then `block_index <- 0` (R115, R168). `BUF` keeps its bytes (R115). -/
def compressBlock (c : Context) : Except Fault Context :=
  match c.buf.readBytes 0 Config.blockBytes with
  | some blk => .ok { c with hash := compress c.hash blk, blockIndex := 0 }
  | none => .error .absentByte

/-- `FlushIfFull()`, the block-full trigger (R115, R189). -/
def flushIfFull (c : Context) : Except Fault Context := if blockFull c then compressBlock c else .ok c

/-- `Store(v); FlushIfFull()`: the path of a padding byte (R163). -/
def storeFlush (v : Byte) (c : Context) : Except Fault Context := (store v c).bind flushIfFull

end Sys2Proof.Machine
end

