-- ==== Sys2Proof/Machine/Append.lean ====
section
/-! DEFINITION. `APPEND` (41_append.md R110 to R122). -/

namespace Sys2Proof.Machine

/-- `Absorb(v)` (R113): store, count, flush. The overflow test has been made before (R114). -/
def absorb (v : Byte) (c : Context) : Except Fault Context :=
  (store v c).bind fun c =>
    flushIfFull { c with bitLength := c.bitLength + BitVec.ofNat 64 Config.bitsPerByte }

/-- The byte loop (R110, R112): the Context it leaves, and `InputTooLong` where it stops at a byte that would overflow
the counter (R114), that byte and all later ones dropped. -/
def absorbAll : List Byte → Context → Except Fault (Context × Status)
  | [], c => .ok (c, .success)
  | v :: vs, c =>
    if lengthWouldOverflow c then .ok (c, .inputTooLong)
    else (absorb v c).bind (absorbAll vs)

/-- The end of an `APPEND` whose byte loop has run (R110). -/
def finishAppend (s : State) : Except Fault (Context × Status) → Host.Outcome State Fault Refusal
  | .ok (c, .success) => .next (returnStatus .success { s with ctx := c })
  | .ok (c, st) => .next (errorEntry true st { s with ctx := c })
  | .error f => .fault f

/-- `APPEND` (R110), its tests in the order of R205; a command that would read an `Uninitialised` Context is refused
(R241). -/
def execAppend (cv : Bool) (pay : List Byte) (s : State) : Host.Outcome State Fault Refusal :=
  if pay.isEmpty then .next (returnStatus .success s)
  else if !cv then .next (errorEntry false .nullPointer s)
  else if !s.initialised then .refused .uninitialisedContext
  else if s.ctx.computed || s.ctx.corrupted then .next (errorEntry true .stateError s)
  else finishAppend s (absorbAll pay s.ctx)

end Sys2Proof.Machine
end

