-- ==== Sys2Proof/Machine/Finish.lean ====
section
/-! DEFINITION. `FINISH` (43_finish.md R160 to R178). -/

namespace Sys2Proof.Machine

/-- `while block_index != 56: Store(0x00); FlushIfFull()` (R165). The number bounds the iterations; 64 is enough from
every cursor `store` accepts, since the loop ends after at most 63 zero bytes (R165; log entry 14). -/
def zeroFill : Nat → Context → Except Fault Context
  | 0, c => .ok c
  | n + 1, c => if atLengthField c then .ok c else (storeFlush 0x00 c).bind (zeroFill n)

/-- The padding engine: the marker and the zeros (R164, R165). `bit_length` is not touched (R163). -/
@[irreducible] def padBlock (c : Context) : Except Fault Context :=
  (storeFlush Config.padMark c).bind (zeroFill Config.blockBytes)

/-- The length field: `MemWrite(BUF, 56, 4, LEN_HI)`, `MemWrite(BUF, 60, 4, LEN_LO)`; the cursor is not used (R56, R167). -/
def insertLength (c : Context) : Context :=
  { c with
    buf := memWrite (memWrite c.buf Config.lenFieldAt 4 (lenHi c.bitLength).toNat) (Config.lenFieldAt + 4) 4
      (lenLo c.bitLength).toNat }

/-- The clean-up: `computed <- 1`, `BUF` to zero (R169). -/
def cleanUp (c : Context) : Context := setComputed { c with buf := zeroBuf c.buf }

/-- The padding path: pad, insert the length, compress unconditionally, clean up (R164 to R169). -/
def finalize (c : Context) : Except Fault Context :=
  (padBlock c).bind fun c => (compressBlock (insertLength c)).map cleanUp

/-- The serialiser: `for i in 0..4: MemWrite(OUT, 4*i, 4, H[i])` (R57, R170). -/
def serialise (h : Hash) (out : Memory) : Memory :=
  let out := memWrite out 0 4 h.h0.toNat
  let out := memWrite out 4 4 h.h1.toNat
  let out := memWrite out 8 4 h.h2.toNat
  let out := memWrite out 12 4 h.h3.toNat
  memWrite out 16 4 h.h4.toNat

/-- The last lines of `FINISH`: the digest goes to `OUT` and the command succeeds (R170). -/
def deliverDigest (s : State) : State :=
  returnStatus .success { s with out := serialise s.ctx.hash s.out }

/-- `FINISH` (R160), its tests in the order of R205; a command that would read an `Uninitialised` Context is refused
(R241). -/
def execFinish (cv ov : Bool) (s : State) : Host.Outcome State Fault Refusal :=
  if cv && !s.initialised then .refused .uninitialisedContext
  else if !cv || !ov then .next (errorEntry cv .nullPointer s)
  else if s.ctx.corrupted then .next (errorEntry true .stateError s)
  else if s.ctx.computed then
    match s.finishOnComputed with
    | .stateError => .next (errorEntry true .stateError s)
    | .reserialize => .next (deliverDigest s)
  else
    match finalize s.ctx with
    | .ok c => .next (deliverDigest { s with ctx := c })
    | .error f => .fault f

end Sys2Proof.Machine
end

