-- ==== Sys2Proof/Machine/Init.lean ====
section
/-! DEFINITION. `INIT` (40_init.md R100). -/

namespace Sys2Proof.Machine

/-- `INIT` (R100): with a valid context reference the Context is reset, in any state; with none, `NullPointer` and
nothing else. -/
def execInit (cv : Bool) (s : State) : Host.Outcome State Fault Refusal :=
  if cv then .next (returnStatus .success (recover s)) else .next (errorEntry false .nullPointer s)

end Sys2Proof.Machine
end

