-- ==== Sys2Proof/Machine/Reserved.lean ====
section
/-! DEFINITION. The reserved operation `OP = 3` (R89 (a)). -/

namespace Sys2Proof.Machine

/-- `OP = 3`: "this spec gives them no behaviour and no status" (R89), so there is no step (U2). -/
def execReserved (_rest : BitVec 30) (_pay : List Byte) (_s : State) : Host.Outcome State Fault Refusal :=
  .refused .reservedOp

end Sys2Proof.Machine
end

