-- ==== Sys2Proof/Machine/Dispatch.lean ====
section
/-! DEFINITION. One command, by its constructor (R88). -/

namespace Sys2Proof.Machine

def exec (i : Instr) (s : State) : Host.Outcome State Fault Refusal :=
  match i with
  | .init cv => Sys2Proof.Machine.execInit cv s
  | .append cv pay => Sys2Proof.Machine.execAppend cv pay s
  | .finish cv ov => Sys2Proof.Machine.execFinish cv ov s
  | .reserved rest pay => Sys2Proof.Machine.execReserved rest pay s

end Sys2Proof.Machine
end

