-- ==== Sys2Proof/Machine/Step.lean ====
section
/-! DEFINITION. One step: the host's next move. A frame is decoded and its command run to completion (R15, R65, R247). -/

namespace Sys2Proof.Machine

/-- One step. With no move pending the core waits and keeps its state (R218, R240). -/
def step (s : State) : Host.Outcome State Fault Refusal :=
  match s.pending with
  | [] => .next s
  | .writeOut addr v :: rest => hostWriteOut addr v { s with pending := rest }
  | .powerOn :: rest => .next (powerOn { s with pending := rest })
  | .frame hdr pay :: rest =>
    match decode hdr pay with
    | .error e => .refused (refusalOfDecode e)
    | .ok i => exec i (acceptFrame hdr rest s)

/-- `s` with the host about to present the frame whose bits are `w`: it stands at the head of the queue. -/
def State.withFetchWord (s : State) (nbits w : Nat) : State :=
  { s with pending := .frame (frameHdr nbits w) (framePay nbits w) :: s.pending }

end Sys2Proof.Machine
end

