-- ==== Sys2Proof/Safety.lean ====
section
/-! DEFINITION. The notions claims are stated in: the invariants of a run, the message a Context stands for (R28), the
digest function (R173, R174), a run of commands, and the frames the spec reserves (R89). -/

namespace Sys2Proof.Machine

/-! ### Invariants -/

/-- What holds of an initialised Context between commands: the cursor is in 0..63 (R24), and `bit_length` is a multiple of
8 (R22). -/
abbrev Context.Inv (c : Context) : Prop :=
  c.blockIndex.toNat < 64 ∧ c.bitLength.toNat % 8 = 0

/-- The invariant of the machine: both byte spaces are in canonical form, so that each of their bytes has a value, and a
Context that has been initialised satisfies `Context.Inv`. -/
abbrev State.Inv (s : State) : Prop :=
  Memory.wf 20 s.out = true ∧ Memory.wf 64 s.ctx.buf = true ∧ (s.initialised = true → s.ctx.Inv)

/-- `Fresh` or `Accepting` (R29): initialised, both flags 0. -/
abbrev State.Accepts (s : State) : Prop :=
  s.initialised = true ∧ s.ctx.computed = false ∧ s.ctx.corrupted = false

/-! ### Messages and digests -/

/-- The fold of the transform over the first `n` 64-byte blocks of a byte string (R28, R174). -/
def hashBlocks : Nat → List Byte → Hash → Hash
  | 0, _, h => h
  | n + 1, m, h => hashBlocks n (m.drop 64) (compress h (m.take 64))

/-- The Context has absorbed exactly the message `m` since `INIT` (R28). -/
def Context.Represents (c : Context) (m : List Byte) : Prop :=
  c.bitLength.toNat = 8 * m.length ∧
  c.blockIndex.toNat = m.length % 64 ∧
  c.hash = hashBlocks (m.length / 64) m initialHash ∧
  c.buf.readBytes 0 (m.length % 64) = some (m.drop (64 * (m.length / 64)))

/-- The invariant of R28: an initialised Context with both flags 0 stands for some message. -/
def State.Tracks (s : State) : Prop := s.Accepts → ∃ m, s.ctx.Represents m

/-- The number of zero bytes the padding engine stores, `(55 - i) mod 64` for the cursor `i` on entry, `i <= 63`
(R165); the 64 added keeps the subtraction on naturals exact. -/
def padZeros (i : Nat) : Nat := (55 + 64 - i) % 64

/-- The padded message `M ++ 80 ++ 00 * z ++ BE64(8 * L)` (R173). -/
def padded (m : List Byte) : List Byte :=
  m ++ [0x80] ++ List.replicate (padZeros (m.length % 64)) 0x00 ++ beBytes 8 (8 * m.length)

/-- The 20 digest bytes of a hash, word-wise big-endian, `H[0]` first (R57). -/
def hashBytes (h : Hash) : List Byte :=
  beBytes 4 h.h0.toNat ++ beBytes 4 h.h1.toNat ++ beBytes 4 h.h2.toNat ++ beBytes 4 h.h3.toNat ++ beBytes 4 h.h4.toNat

/-- The digest function (R174): the fold of the transform over the blocks of the padded message, serialised. -/
def digest (m : List Byte) : List Byte :=
  hashBytes (hashBlocks ((padded m).length / 64) (padded m) initialHash)

/-! ### Runs and what the host sees -/

/-- The commands one after another, stopping at the first fault or refusal (R65). -/
def runCommands : List Instr → State → Host.Outcome State Fault Refusal
  | [], s => .next s
  | i :: is, s =>
    match exec i s with
    | .next t => runCommands is t
    | .fault f => .fault f
    | .refused r => .refused r

/-- Two outcomes of which a host, and every later command, can tell nothing apart: the same Context, `OUT`, `STATUS` and
initialisation, or the same stop. -/
def SameOutcome : Host.Outcome State Fault Refusal → Host.Outcome State Fault Refusal → Prop
  | .next a, .next b => a.ctx = b.ctx ∧ a.out = b.out ∧ a.status = b.status ∧ a.initialised = b.initialised
  | .fault f, .fault g => f = g
  | .refused r, .refused q => r = q
  | _, _ => False

/-- The lifecycle state machine (R181): for the state on entry, the policy, whether the length counter would overflow on
the payload, and the command, the status and the state on exit; `none` where the model refuses. -/
def transition (policy : FinishPolicy) (overflow : Bool) (l : Lifecycle) : Instr → Option (Status × Lifecycle)
  | .init true => some (.success, .fresh)
  | .init false => some (.nullPointer, l)
  | .append cv pay =>
    if pay = [] then some (.success, l)
    else if cv = false then some (.nullPointer, l)
    else match l with
      | .uninitialised => none
      | .fresh | .accepting => if overflow then some (.inputTooLong, .corrupted) else some (.success, .accepting)
      | .computed | .corrupted => some (.stateError, .corrupted)
  | .finish false _ => some (.nullPointer, l)
  | .finish true ov =>
    if l = .uninitialised then none
    else if ov = false then some (.nullPointer, .corrupted)
    else match l with
      | .uninitialised => none
      | .fresh | .accepting => some (.success, .computed)
      | .computed =>
        match policy with
        | .reserialize => some (.success, .computed)
        | .stateError => some (.stateError, .corrupted)
      | .corrupted => some (.stateError, .corrupted)
  | .reserved _ _ => none

/-- The payload of a command; none but `APPEND` has one (R52). -/
def payloadOf : Instr → List Byte
  | .append _ pay => pay
  | _ => []

/-- The command's payload would take the length counter past `2^64 - 1` (R114, R181). -/
def overflows (s : State) (i : Instr) : Bool :=
  decide (s.ctx.bitLength.toNat + 8 * (payloadOf i).length > 2 ^ 64 - 1)

/-- Store bytes one after another by the padding path (R163). -/
def storeFlushAll : List Byte → Context → Except Fault Context
  | [], c => .ok c
  | v :: vs, c => (storeFlush v c).bind (storeFlushAll vs)

/-- `A..E` after round `t` of the rounds on the schedule words `w` (R140, R145). -/
def afterRound (w : List Word) (v : Work) (t : Nat) : Work := roundsFrom 0 (w.take (t + 1)) v

/-- The context reference of a command is valid (R81). -/
def ctxValid : Instr → Bool
  | .init cv => cv
  | .append cv _ => cv
  | .finish cv _ => cv
  | .reserved _ _ => false

/-- The reserved frames (R89 (a) to (d)), on the bits of the header. -/
def ReservedFrame (hdr : Word) (pay : List Byte) : Prop :=
  hdr.toNat % 4 = 3 ∨
  ((hdr.toNat % 4 = 0 ∨ hdr.toNat % 4 = 2) ∧ hdr.toNat / 16 ≠ 0) ∨
  ((hdr.toNat % 4 = 0 ∨ hdr.toNat % 4 = 1) ∧ hdr.toNat / 8 % 2 = 1) ∨
  (hdr.toNat % 4 = 1 ∧ pay.length ≠ hdr.toNat / 16)

end Sys2Proof.Machine
end

