-- ==== Sys2Proof/Certificates/Slice0/Obligations.lean ====
section
/-! DEFINITION. The statements for the provers. Each docstring names the rule of spec/ it formalises. -/

open Sys2Proof Sys2Proof.Machine

/-! ### Frames and encodings (30_encoding.md) -/

/-- R80 to R84, R89: decoding the frame of a command gives the command back, for every command and every operand. -/
def Obligations.DecodeOfEncode : Prop :=
  ∀ i : Instr, i.wf = true → decode (encode i).1 (encode i).2 = .ok i

/-- R80 to R84, R89: the other direction. A frame that decodes is the frame of the command it decodes to, so no bit of a
legal frame is dropped and no two frames share a meaning. -/
def Obligations.EncodeOfDecode : Prop :=
  ∀ (hdr : Word) (pay : List Byte) (i : Instr), decode hdr pay = .ok i → i.wf = true ∧ encode i = (hdr, pay)

/-- R82: format I by its mask and match, and its two legal headers. -/
def Obligations.InitFrames : Prop :=
  ∀ (hdr : Word) (pay : List Byte),
    ((∃ cv, decode hdr pay = .ok (.init cv)) ↔ hdr &&& 0xFFFFFFFB = 0x00000000 ∧ pay = []) ∧
    (∀ cv, decode hdr pay = .ok (.init cv) ↔ hdr = (if cv then 0x00000004 else 0x00000000) ∧ pay = [])

/-- R83: format A by its mask and match; `LEN = HDR[31:4]` payload bytes; the header for `n` bytes is `n * 16 + 5`, and
`n * 16 + 1` with no valid context. -/
def Obligations.AppendFrames : Prop :=
  (∀ (hdr : Word) (pay pay' : List Byte) (cv : Bool),
    decode hdr pay = .ok (.append cv pay') ↔
      hdr &&& 0x0000000B = 0x00000001 ∧ pay.length = hdr.toNat / 16 ∧ cv = hdr.getLsbD 2 ∧ pay' = pay) ∧
  (∀ pay : List Byte, pay.length < 2 ^ 28 →
    decode (BitVec.ofNat 32 (pay.length * 16 + 5)) pay = .ok (.append true pay) ∧
    decode (BitVec.ofNat 32 (pay.length * 16 + 1)) pay = .ok (.append false pay))

/-- R84: format F by its mask and match, and its four legal headers. -/
def Obligations.FinishFrames : Prop :=
  ∀ (hdr : Word) (pay : List Byte),
    ((∃ cv ov, decode hdr pay = .ok (.finish cv ov)) ↔ hdr &&& 0xFFFFFFF3 = 0x00000002 ∧ pay = []) ∧
    (∀ cv ov, decode hdr pay = .ok (.finish cv ov) ↔
      hdr = (match cv, ov with
        | true, true => 0x0000000E
        | true, false => 0x00000006
        | false, true => 0x0000000A
        | false, false => 0x00000002) ∧ pay = [])

/-- R89: a reserved frame gets no behaviour, whatever the state; every other frame is a command, one of the three. (A
frame of `INIT` or `FINISH` has no payload, R80.) -/
def Obligations.ReservedFramesRefused : Prop :=
  (∀ (s : State) (hdr : Word) (pay : List Byte) (rest : List HostMove), s.pending = .frame hdr pay :: rest →
    ReservedFrame hdr pay →
    ∃ r, step s = .refused r ∧ r ∈ [Refusal.reservedOp, .reservedLen, .reservedOv, .payloadLength]) ∧
  (∀ (hdr : Word) (pay : List Byte), ¬ ReservedFrame hdr pay → (hdr.toNat % 4 ≠ 1 → pay = []) →
    ∃ i, decode hdr pay = .ok i ∧ ∀ r p, i ≠ .reserved r p)

/-- R89 (a): the reserved operation has no step, on any operand and in any state. -/
def Obligations.ReservedCommandRefused : Prop :=
  ∀ (rest : BitVec 30) (pay : List Byte) (s : State), exec (.reserved rest pay) s = .refused .reservedOp

/-- R82 to R84, R90: some frames of the spec, word by word. -/
def Obligations.SampleFramesDecode : Prop :=
  decode 0x00000004 [] = .ok (.init true) ∧
  decode 0x00000000 [] = .ok (.init false) ∧
  decode 0x00000035 [0x61, 0x62, 0x63] = .ok (.append true [0x61, 0x62, 0x63]) ∧
  decode 0x00000011 [0x64] = .ok (.append false [0x64]) ∧
  decode 0x00000005 [] = .ok (.append true []) ∧
  decode 0x0000000E [] = .ok (.finish true true) ∧
  decode 0x00000006 [] = .ok (.finish true false) ∧
  decode 0x0000000A [] = .ok (.finish false true) ∧
  decode 0x00000002 [] = .ok (.finish false false)

/-! ### The step and the host's side -/

/-- R15, R32, R65, R52: a frame that decodes to `i` is executed as `i`, with `HDR` holding its header. That one step takes
the frame at the head of a queue and removes it, payload and all, is the model's choice: log entries 3 (the queue) and 13
(one command a step). -/
def Obligations.StepRunsDecodedCommand : Prop :=
  ∀ (s : State) (hdr : Word) (pay : List Byte) (rest : List HostMove) (i : Instr),
    s.pending = .frame hdr pay :: rest → decode hdr pay = .ok i →
    step s = exec i { s with hdr := hdr, pending := rest }

/-- R218, R240: with nothing pending the core waits and keeps its state. The model's choice: log entry 7. -/
def Obligations.CoreWaits : Prop :=
  ∀ s : State, s.pending = [] → step s = .next s

/-- R255, R51, R17: the host may overwrite a byte of `OUT` between commands; nothing else of the machine changes, no other
byte does, and an address outside 0..19 does not exist. The moves are the model's choice: log entries 3 and 8. -/
def Obligations.HostOverwritesOut : Prop :=
  ∀ (s : State) (a : Nat) (v : Byte) (rest : List HostMove), s.pending = .writeOut a v :: rest →
    if a < 20 then
      ∃ t, step s = .next t ∧ t.out.read a = some v ∧ (∀ b, b ≠ a → t.out.read b = s.out.read b) ∧
        t = { s with out := t.out, pending := rest }
    else step s = .fault .outAddress

/-- R240, R241: after a power-on the context is `Uninitialised`, and `OUT` is whatever the host left there. That a power-on
is a move of the host is the model's choice: log entry 15; so is that the bytes of `BUF` then hold free values: log
entry 2. -/
def Obligations.PowerOnUninitialises : Prop :=
  ∀ (s : State) (rest : List HostMove), s.pending = .powerOn :: rest →
    ∃ t, step s = .next t ∧ t.lifecycle = .uninitialised ∧ (∀ a, a < 64 → (t.ctx.buf.read a).isSome = true) ∧
      t.out = s.out ∧ t.finishOnComputed = s.finishOnComputed ∧ t.pending = rest

/-- R241: `initialised` is set by an `INIT` with `CV = 1` and by nothing else, and cleared by nothing but a power-on. -/
def Obligations.InitialisedFromInitToPowerOn : Prop :=
  ∀ s t : State, step s = .next t →
    (s.initialised = true → t.initialised = false → ∃ rest, s.pending = .powerOn :: rest) ∧
    (s.initialised = false → t.initialised = true → ∃ rest, s.pending = .frame 0x00000004 [] :: rest)

/-- R36, R240, R9: after reset the context is `Uninitialised`, the policy has its default, no frame is presented, and
every byte of `BUF` and `OUT` has a value. That the queue starts empty and that the values are free ones are the model's
choices: log entries 3 and 2. -/
def Obligations.ResetIsUninitialised : Prop :=
  State.reset.lifecycle = .uninitialised ∧ State.reset.finishOnComputed = .reserialize ∧ State.reset.pending = [] ∧
  (∀ a, a < 64 → (State.reset.ctx.buf.read a).isSome = true) ∧ (∀ a, a < 20 → (State.reset.out.read a).isSome = true)

/-- R241: in `Uninitialised` a command that would read the Context is refused. -/
def Obligations.UninitialisedRefused : Prop :=
  ∀ s : State, s.initialised = false →
    (∀ pay : List Byte, pay ≠ [] → exec (.append true pay) s = .refused .uninitialisedContext) ∧
    (∀ ov, exec (.finish true ov) s = .refused .uninitialisedContext)

/-! ### `INIT` (40_init.md) -/

/-- R100: `INIT`, both forms, in any state: the Context it leaves, its status, and that nothing else changes. -/
def Obligations.InitResetsContext : Prop :=
  ∀ s : State,
    (∃ t, exec (.init true) s = .next t ∧
      t.ctx.hash = ⟨0x67452301, 0xEFCDAB89, 0x98BADCFE, 0x10325476, 0xC3D2E1F0⟩ ∧
      t.ctx.bitLength = 0 ∧ t.ctx.blockIndex = 0 ∧ t.ctx.computed = false ∧ t.ctx.corrupted = false ∧
      (∀ a, t.ctx.buf.read a = if a < 64 then some 0x00 else s.ctx.buf.read a) ∧
      t = { s with ctx := t.ctx, initialised := true, status := 0 }) ∧
    exec (.init false) s = .next { s with status := 1 }

/-- R100 (b): `INIT` twice leaves the same state as once. -/
def Obligations.InitTwiceIsOnce : Prop :=
  ∀ s t : State, s.Inv → exec (.init true) s = .next t → exec (.init true) t = .next t

/-- R102: after `INIT` no later sequence of commands can tell what the context held before: the same statuses, the same
`OUT`, the same Contexts, the same stops. -/
def Obligations.InitHidesHistory : Prop :=
  ∀ s t : State, s.Inv → t.Inv → s.finishOnComputed = t.finishOnComputed → s.out = t.out →
    ∀ cmds : List Instr, SameOutcome (runCommands (.init true :: cmds) s) (runCommands (.init true :: cmds) t)

/-! ### `APPEND` (41_append.md) -/

/-- R116: the empty payload succeeds with no effect, in every lifecycle state and with any context reference. -/
def Obligations.AppendEmpty : Prop :=
  ∀ (cv : Bool) (s : State), exec (.append cv []) s = .next { s with status := 0 }

/-- R117: with no valid context reference a non-empty `APPEND` is a `NullPointer` and changes nothing. -/
def Obligations.AppendNullContext : Prop :=
  ∀ (pay : List Byte) (s : State), pay ≠ [] → exec (.append false pay) s = .next { s with status := 1 }

/-- R111: a non-empty `APPEND` on a context that is `Computed` or `Corrupted` sets `corrupted`, returns `StateError` and
changes nothing else. -/
def Obligations.AppendStateError : Prop :=
  ∀ (pay : List Byte) (s : State), pay ≠ [] → s.initialised = true →
    (s.ctx.computed = true ∨ s.ctx.corrupted = true) →
    exec (.append true pay) s = .next { s with ctx := { s.ctx with corrupted := true }, status := 3 }

/-- R110, R119: an `APPEND` that the counter has room for succeeds; the cursor and the counter it leaves, both flags 0,
and nothing outside the Context but `STATUS` changed. -/
def Obligations.AppendSucceeds : Prop :=
  ∀ (pay : List Byte) (s : State), s.Inv → s.Accepts → s.ctx.bitLength.toNat + 8 * pay.length ≤ 2 ^ 64 - 1 →
    ∃ t, exec (.append true pay) s = .next t ∧
      t.ctx.blockIndex.toNat = (s.ctx.blockIndex.toNat + pay.length) % 64 ∧
      t.ctx.bitLength.toNat = s.ctx.bitLength.toNat + 8 * pay.length ∧
      t.ctx.computed = false ∧ t.ctx.corrupted = false ∧
      t = { s with ctx := t.ctx, status := 0 }

/-- R113: one byte below the end of the block: stored at the cursor, the cursor and the counter advanced, nothing else. -/
def Obligations.AppendByteInsideBlock : Prop :=
  ∀ (v : Byte) (s : State), s.Accepts → s.ctx.blockIndex.toNat < 63 → s.ctx.bitLength.toNat + 8 ≤ 2 ^ 64 - 1 →
    exec (.append true [v]) s = .next
      { s with
        ctx := { s.ctx with
          buf := s.ctx.buf.write s.ctx.blockIndex.toNat v
          blockIndex := s.ctx.blockIndex + 1
          bitLength := s.ctx.bitLength + 8 }
        status := 0 }

/-- R113, R115: the byte that fills the block: stored at 63, the block compressed into the hash, the cursor back to 0, the
bytes of `BUF` kept. -/
def Obligations.AppendByteFillsBlock : Prop :=
  ∀ (v : Byte) (blk : List Byte) (s : State), s.Accepts → s.ctx.blockIndex = 63 →
    s.ctx.bitLength.toNat + 8 ≤ 2 ^ 64 - 1 → (s.ctx.buf.write 63 v).readBytes 0 64 = some blk →
    exec (.append true [v]) s = .next
      { s with
        ctx := { s.ctx with
          hash := compress s.ctx.hash blk
          buf := s.ctx.buf.write 63 v
          blockIndex := 0
          bitLength := s.ctx.bitLength + 8 }
        status := 0 }

/-- R114, R118: the first byte that would take the counter past `2^64 - 1` stops the command with `InputTooLong`: the
bytes before it have been absorbed as by an `APPEND` of them alone, `corrupted` is set, and that byte and all later ones
are dropped. -/
def Obligations.AppendOverflow : Prop :=
  ∀ (pre post : List Byte) (v : Byte) (s : State), s.Inv → s.Accepts →
    s.ctx.bitLength.toNat + 8 * pre.length ≤ 2 ^ 64 - 1 →
    s.ctx.bitLength.toNat + 8 * pre.length + 8 > 2 ^ 64 - 1 →
    ∃ t, exec (.append true pre) s = .next t ∧ t.status = 0 ∧
      exec (.append true (pre ++ v :: post)) s =
        .next { t with ctx := { t.ctx with corrupted := true }, status := 2 }

/-- R120: chunking invariance. If one `APPEND` of a byte string succeeds, so do the `APPEND`s of any pieces it is cut
into, in order; they leave the same Context, and a `FINISH` after either writes the same `OUT`. -/
def Obligations.ChunkingInvariance : Prop :=
  ∀ (chunks : List (List Byte)) (s u : State), s.Accepts →
    exec (.append true chunks.flatten) s = .next u → u.status = 0 →
    ∃ t, runCommands (chunks.map (.append true)) s = .next t ∧ t.ctx = u.ctx ∧ t.out = u.out ∧
      ∀ u', exec (.finish true true) u = .next u' → exec (.finish true true) t = .next u'

/-- The frame of `APPEND` (R110, R111, R114): whatever status it returns, `computed`, `OUT`, `HDR` and all outside the
Context but `STATUS` keep their values; byte `k` of the payload is stored at cursor `+ k`, modulo 64, and every byte of
`BUF` at another address keeps its value; `H` changes only if the block fills. -/
def Obligations.AppendFrame : Prop :=
  ∀ (cv : Bool) (pay : List Byte) (s t : State), exec (.append cv pay) s = .next t →
    t.ctx.computed = s.ctx.computed ∧
    t = { s with ctx := t.ctx, status := t.status } ∧
    (∀ a, (∀ k, k < pay.length → (s.ctx.blockIndex.toNat + k) % 64 ≠ a) → t.ctx.buf.read a = s.ctx.buf.read a) ∧
    (s.ctx.blockIndex.toNat + pay.length < 64 → t.ctx.hash = s.ctx.hash)

/-! ### The compression transform (42_compress.md) -/

/-- R131, R132: the schedule has 80 words; the first 16 are the block's big-endian words, each later one the rotation by 1
of the XOR of four earlier ones. -/
def Obligations.ScheduleWords : Prop :=
  ∀ blk : List Byte, blk.length = 64 →
    (schedule blk).length = 80 ∧
    (∀ t, t < 16 → ((schedule blk).getD t 0).toNat =
      (blk.getD (4 * t) 0).toNat * 2 ^ 24 + (blk.getD (4 * t + 1) 0).toNat * 2 ^ 16 +
        (blk.getD (4 * t + 2) 0).toNat * 2 ^ 8 + (blk.getD (4 * t + 3) 0).toNat) ∧
    (∀ t, 16 ≤ t → t < 80 → (schedule blk).getD t 0 =
      rotl 1 ((schedule blk).getD (t - 3) 0 ^^^ (schedule blk).getD (t - 8) 0 ^^^ (schedule blk).getD (t - 14) 0 ^^^
        (schedule blk).getD (t - 16) 0))

/-- R133: the schedule of the XOR of two blocks is the XOR of their schedules, and a block of zeros has a schedule of
zeros. -/
def Obligations.ScheduleIsLinear : Prop :=
  (∀ blk blk' : List Byte, blk.length = 64 → blk'.length = 64 →
    schedule (List.zipWith (· ^^^ ·) blk blk') = List.zipWith (· ^^^ ·) (schedule blk) (schedule blk')) ∧
  schedule (List.replicate 64 0x00) = List.replicate 80 0

/-- R135, R11: `rotl_n` on numbers, for every amount, no bit lost; and `rotl_30` is a rotation right by 2. -/
def Obligations.RotationsAreCircular : Prop :=
  (∀ (n : Nat) (x : Word), 0 < n → n < 32 →
    (rotl n x).toNat = (x.toNat * 2 ^ n) % 2 ^ 32 + x.toNat / 2 ^ (32 - n)) ∧
  (∀ x : Word, rotl 30 x = x.rotateRight 2)

/-- R136: the adders are exact modulo `2^32`. -/
def Obligations.AddersWrap : Prop :=
  (∀ a b : Word, (add32 a b).toNat = (a.toNat + b.toNat) % 2 ^ 32) ∧
  (∀ a b c d e : Word, (add32x5 a b c d e).toNat = (a.toNat + b.toNat + c.toNat + d.toNat + e.toNat) % 2 ^ 32)

/-- R141 to R143: the round functions, bit by bit. -/
def Obligations.RoundFunctionsBitwise : Prop :=
  ∀ (x y z : Word) (i : Nat), i < 32 →
    (choose x y z).getLsbD i = (if x.getLsbD i then y.getLsbD i else z.getLsbD i) ∧
    (parity x y z).getLsbD i =
      decide (((x.getLsbD i).toNat + (y.getLsbD i).toNat + (z.getLsbD i).toNat) % 2 = 1) ∧
    (majority x y z).getLsbD i =
      decide ((x.getLsbD i).toNat + (y.getLsbD i).toNat + (z.getLsbD i).toNat ≥ 2)

/-- R137 to R139, R144: the stage of a round, and the two selectors over the 80 rounds. -/
def Obligations.SelectorTable : Prop :=
  ∀ (t : Nat) (b c d : Word), t < 80 →
    (t < 20 → stage t = 0 ∧ roundFunction t b c d = choose b c d ∧ roundConstant t = 0x5A827999) ∧
    (20 ≤ t → t < 40 → stage t = 1 ∧ roundFunction t b c d = parity b c d ∧ roundConstant t = 0x6ED9EBA1) ∧
    (40 ≤ t → t < 60 → stage t = 2 ∧ roundFunction t b c d = majority b c d ∧ roundConstant t = 0x8F1BBCDC) ∧
    (60 ≤ t → stage t = 3 ∧ roundFunction t b c d = parity b c d ∧ roundConstant t = 0xCA62C1D6)

/-- R140, R145: round 0 works on the starting state and schedule word 0; round `t + 1` on the state after round `t` and
schedule word `t + 1`; every right-hand side uses the old values. -/
def Obligations.RoundsInOrder : Prop :=
  (∀ (w : List Word) (v : Work), 0 < w.length →
    afterRound w v 0 =
      ⟨rotl 5 v.a + roundFunction 0 v.b v.c v.d + v.e + roundConstant 0 + w.getD 0 0, v.a, rotl 30 v.b, v.c, v.d⟩) ∧
  (∀ (w : List Word) (v : Work) (t : Nat), t + 1 < w.length →
    afterRound w v (t + 1) =
      ⟨rotl 5 (afterRound w v t).a +
          roundFunction (t + 1) (afterRound w v t).b (afterRound w v t).c (afterRound w v t).d +
          (afterRound w v t).e + roundConstant (t + 1) + w.getD (t + 1) 0,
        (afterRound w v t).a, rotl 30 (afterRound w v t).b, (afterRound w v t).c, (afterRound w v t).d⟩)

/-- R148: after round `t`, `t >= 4`, the working variables are earlier values of `A`, rotated. -/
def Obligations.WorkingVariablesAreEarlierA : Prop :=
  ∀ (w : List Word) (v : Work) (t : Nat), 4 ≤ t → t < w.length →
    (afterRound w v t).b = (afterRound w v (t - 1)).a ∧
    (afterRound w v t).c = rotl 30 (afterRound w v (t - 2)).a ∧
    (afterRound w v t).d = rotl 30 (afterRound w v (t - 3)).a ∧
    (afterRound w v t).e = rotl 30 (afterRound w v (t - 4)).a

/-- R130, R134, R146: the transform is the 80 rounds on the schedule of the block, from the hash words position by
position, added back lane by lane modulo `2^32`. -/
def Obligations.CompressIsRoundsPlusFeedForward : Prop :=
  ∀ (h : Hash) (blk : List Byte), blk.length = 64 →
    compress h blk =
      ⟨h.h0 + (afterRound (schedule blk) ⟨h.h0, h.h1, h.h2, h.h3, h.h4⟩ 79).a,
        h.h1 + (afterRound (schedule blk) ⟨h.h0, h.h1, h.h2, h.h3, h.h4⟩ 79).b,
        h.h2 + (afterRound (schedule blk) ⟨h.h0, h.h1, h.h2, h.h3, h.h4⟩ 79).c,
        h.h3 + (afterRound (schedule blk) ⟨h.h0, h.h1, h.h2, h.h3, h.h4⟩ 79).d,
        h.h4 + (afterRound (schedule blk) ⟨h.h0, h.h1, h.h2, h.h3, h.h4⟩ 79).e⟩

/-! ### `FINISH` (43_finish.md) -/

/-- R171: `FINISH` with an invalid reference: `NullPointer`, `corrupted` set when there is a context to mark, nothing else
changed. With a valid context, the context must have been initialised (R241). -/
def Obligations.FinishNullReference : Prop :=
  ∀ s : State,
    (∀ ov, exec (.finish false ov) s = .next { s with status := 1 }) ∧
    (s.initialised = true →
      exec (.finish true false) s = .next { s with ctx := { s.ctx with corrupted := true }, status := 1 })

/-- R161: `FINISH` on a `Corrupted` context: `StateError`, nothing else changed, whatever `computed` holds. -/
def Obligations.FinishCorrupted : Prop :=
  ∀ s : State, s.initialised = true → s.ctx.corrupted = true →
    exec (.finish true true) s = .next { s with status := 3 }

/-- R162: `FINISH` on a `Computed` context, under both policies. -/
def Obligations.FinishComputed : Prop :=
  ∀ s : State, s.initialised = true → s.ctx.corrupted = false → s.ctx.computed = true →
    (s.finishOnComputed = .reserialize →
      ∃ t, exec (.finish true true) s = .next t ∧ t.out.readBytes 0 20 = some (hashBytes s.ctx.hash) ∧
        t = { s with out := t.out, status := 0 }) ∧
    (s.finishOnComputed = .stateError →
      exec (.finish true true) s = .next { s with ctx := { s.ctx with corrupted := true }, status := 3 })

/-- R164, R165, R163: from cursor `i` the padding engine stores the marker and `(55 - i) mod 64` zeros, flushing a full
block; it leaves the cursor at 56 and does not touch the counter. -/
def Obligations.PaddingBytesStored : Prop :=
  ∀ c : Context, c.blockIndex.toNat < 64 → Memory.full 64 c.buf = true →
    ∃ c', padBlock c = .ok c' ∧
      storeFlushAll (0x80 :: List.replicate (padZeros c.blockIndex.toNat) 0x00) c = .ok c' ∧
      c'.blockIndex.toNat = 56 ∧ c'.bitLength = c.bitLength ∧
      c'.computed = c.computed ∧ c'.corrupted = c.corrupted

/-- R56, R167: the length field: the counter as one big-endian 8-byte number at 56..63, every other byte and every other
field unchanged. -/
def Obligations.LengthFieldBytes : Prop :=
  ∀ c : Context,
    (∀ j, j < 8 → (insertLength c).buf.read (56 + j) = some (BitVec.ofNat 8 (c.bitLength.toNat / 256 ^ (7 - j)))) ∧
    (∀ a, a < 56 ∨ 64 ≤ a → (insertLength c).buf.read a = c.buf.read a) ∧
    insertLength c = { c with buf := (insertLength c).buf }

/-- R57, R170: the digest in `OUT`: byte `4*i + j` is byte `j` of `H[i]`, most significant first; no other byte. -/
def Obligations.DigestByteOrder : Prop :=
  ∀ (h : Hash) (out : Memory),
    (∀ j, j < 4 →
      (serialise h out).read j = some (BitVec.ofNat 8 (h.h0.toNat / 256 ^ (3 - j))) ∧
      (serialise h out).read (4 + j) = some (BitVec.ofNat 8 (h.h1.toNat / 256 ^ (3 - j))) ∧
      (serialise h out).read (8 + j) = some (BitVec.ofNat 8 (h.h2.toNat / 256 ^ (3 - j))) ∧
      (serialise h out).read (12 + j) = some (BitVec.ofNat 8 (h.h3.toNat / 256 ^ (3 - j))) ∧
      (serialise h out).read (16 + j) = some (BitVec.ofNat 8 (h.h4.toNat / 256 ^ (3 - j)))) ∧
    (∀ a, 20 ≤ a → (serialise h out).read a = out.read a)

/-- R175: a first `FINISH` on an accepting context succeeds, and the state it leaves. -/
def Obligations.FinishSucceeds : Prop :=
  ∀ s : State, s.Inv → s.Accepts →
    ∃ t, exec (.finish true true) s = .next t ∧
      t.ctx.bitLength = s.ctx.bitLength ∧ t.ctx.blockIndex = 0 ∧
      (∀ a, a < 64 → t.ctx.buf.read a = some 0x00) ∧
      t.ctx.computed = true ∧ t.ctx.corrupted = false ∧
      t.out.readBytes 0 20 = some (hashBytes t.ctx.hash) ∧
      t = { s with ctx := t.ctx, out := t.out, status := 0 }

/-- The frame of `FINISH` (R160, R163, R206): whatever status it returns, `bit_length` and all but the Context, `OUT` and
`STATUS` keep their values; a failing `FINISH` changes nothing of the Context but `corrupted`, and nothing of `OUT`; the
bytes of `BUF` and `OUT` outside the two spaces' stored addresses keep their values. -/
def Obligations.FinishFrame : Prop :=
  ∀ (cv ov : Bool) (s t : State), exec (.finish cv ov) s = .next t →
    t.ctx.bitLength = s.ctx.bitLength ∧
    t = { s with ctx := t.ctx, out := t.out, status := t.status } ∧
    (t.status ≠ 0 → t.out = s.out ∧ t.ctx = { s.ctx with corrupted := t.ctx.corrupted }) ∧
    (∀ a, 64 ≤ a → t.ctx.buf.read a = s.ctx.buf.read a) ∧
    (∀ a, 20 ≤ a → t.out.read a = s.out.read a)

/-! ### Whole-machine rules -/

/-- R51, R61: no command writes `OUT` but a `FINISH` that returns `Success`, which writes all 20 bytes; a failing command
leaves it untouched. -/
def Obligations.OutWrittenOnlyBySuccessfulFinish : Prop :=
  ∀ (i : Instr) (s t : State), exec i s = .next t →
    if i = .finish true true ∧ t.status = 0 then
      t.out.readBytes 0 20 = some (hashBytes t.ctx.hash) ∧ ∀ a, 20 ≤ a → t.out.read a = s.out.read a
    else t.out = s.out

/-- R25, R26, R27 (a), R34, R206: `computed` is set only by a `FINISH` on an accepting context and cleared only by `INIT`;
`corrupted` is set only by a command that fails with a valid context reference, an `APPEND` or a `FINISH`, and cleared only
by `INIT`; no command sets both. -/
def Obligations.FlagWrites : Prop :=
  ∀ (i : Instr) (s t : State), exec i s = .next t → s.initialised = true →
    (s.ctx.computed = false → t.ctx.computed = true → i = .finish true true ∧ s.Accepts ∧ t.status = 0) ∧
    (s.ctx.computed = true → t.ctx.computed = false → i = .init true) ∧
    (s.ctx.corrupted = false → t.ctx.corrupted = true → t.status ≠ 0 ∧ ctxValid i = true ∧
      ((∃ pay, i = .append true pay) ∨ ∃ ov, i = .finish true ov)) ∧
    (s.ctx.corrupted = true → t.ctx.corrupted = false → i = .init true) ∧
    ¬ (s.ctx.computed = false ∧ t.ctx.computed = true ∧ s.ctx.corrupted = false ∧ t.ctx.corrupted = true)

/-- R27 (b), R187, R209: on a `Corrupted` context no command but `INIT` on it changes anything of the Context. -/
def Obligations.CorruptedContextIsFrozen : Prop :=
  ∀ (i : Instr) (s t : State), exec i s = .next t → s.initialised = true → s.ctx.corrupted = true → i ≠ .init true →
    t.ctx = s.ctx

/-- R22, R213, R27 (c): what a command does to `bit_length`: `INIT` clears it, an `APPEND` adds 8 per byte absorbed
without ever wrapping, nothing else changes it. -/
def Obligations.BitLengthCounts : Prop :=
  ∀ (i : Instr) (s t : State), exec i s = .next t →
    (i = .init true → t.ctx.bitLength = 0) ∧
    (∀ cv pay, i = .append cv pay →
      ∃ k, k ≤ pay.length ∧ t.ctx.bitLength.toNat = s.ctx.bitLength.toNat + 8 * k) ∧
    ((i ≠ .init true ∧ ∀ cv pay, i ≠ .append cv pay) → t.ctx.bitLength = s.ctx.bitLength)

/-- R206, R185, R200: an error marks the context exactly when the command's context reference is valid; with an invalid
one nothing of the Context changes. -/
def Obligations.ErrorsMarkTheContext : Prop :=
  ∀ (i : Instr) (s t : State), exec i s = .next t →
    (t.status ≠ 0 → ctxValid i = true → t.ctx.corrupted = true) ∧
    (ctxValid i = false → t.ctx = s.ctx)

/-- R204: which command returns which status. -/
def Obligations.StatusesOfCommands : Prop :=
  ∀ (i : Instr) (s t : State), exec i s = .next t →
    (∀ cv, i = .init cv → t.status = (if cv then 0 else 1)) ∧
    (∀ cv pay, i = .append cv pay →
      (t.status = 1 ↔ pay ≠ [] ∧ cv = false) ∧
      (t.status = 2 ↔ pay ≠ [] ∧ cv = true ∧ s.ctx.computed = false ∧ s.ctx.corrupted = false ∧
        s.ctx.bitLength.toNat + 8 * pay.length > 2 ^ 64 - 1) ∧
      (t.status = 3 ↔ pay ≠ [] ∧ cv = true ∧ (s.ctx.computed = true ∨ s.ctx.corrupted = true))) ∧
    (∀ cv ov, i = .finish cv ov →
      (t.status = 1 ↔ cv = false ∨ ov = false) ∧ t.status ≠ 2 ∧
      (t.status = 3 ↔ cv = true ∧ ov = true ∧ (s.ctx.corrupted = true ∨
        (s.ctx.computed = true ∧ s.finishOnComputed = .stateError))))

/-- R32 ("Neither register is read by any rule") and R65 (a command sees "no effect of a later one"): what a command does,
and its status, do not depend on `HDR`, on the last `STATUS` or on what the host has pending. The queue of what is pending is
the model's own field: log entry 3. -/
def Obligations.CommandsIgnoreInterfaceRegisters : Prop :=
  ∀ (i : Instr) (s : State) (hdr : Word) (st : BitVec 2) (moves : List HostMove),
    SameOutcome (exec i s) (exec i { s with hdr := hdr, status := st, pending := moves })

/-- R181: the machine follows the lifecycle state machine: status and state on exit are those of the table, in every
state that satisfies the invariant, for every command but the reserved one. -/
def Obligations.FollowsLifecycleTable : Prop :=
  ∀ (i : Instr) (s : State), s.Inv → (∀ rest pay, i ≠ .reserved rest pay) →
    match transition s.finishOnComputed (overflows s i) s.lifecycle i with
    | some (st, l) => ∃ t, exec i s = .next t ∧ t.status = statusCode st ∧ t.lifecycle = l
    | none => exec i s = .refused .uninitialisedContext

/-- R22, R24, R50, R51: the invariant is kept by every step, from every state: canonical byte spaces, each of
whose bytes has a value, and for an initialised Context a cursor in 0..63 and a counter that is a multiple of 8. -/
def Obligations.InvariantKept : Prop :=
  ∀ s t : State, s.Inv → step s = .next t → t.Inv

/-- The invariant holds after reset. -/
def Obligations.InvariantAtReset : Prop := State.reset.Inv

/-- R28: every step keeps that an initialised Context with both flags 0 stands for a message: counter, cursor, hash and
buffer are those of the bytes absorbed since `INIT`. -/
def Obligations.MessageInvariantKept : Prop :=
  ∀ s t : State, s.Tracks → step s = .next t → t.Tracks

/-- The message invariant holds after reset. -/
def Obligations.MessageInvariantAtReset : Prop := State.reset.Tracks

/-- R174, R173, R120: the digest function. `INIT`, any sequence of `APPEND`s of at most `2^61 - 1` bytes in all, and one
`FINISH` succeed, from any state, and leave in `OUT` the fold of the transform over the blocks of the padded message, from
the initial constants, serialised. -/
def Obligations.DigestOfMessage : Prop :=
  ∀ (s : State) (chunks : List (List Byte)), s.Inv → chunks.flatten.length ≤ 2 ^ 61 - 1 →
    ∃ t, runCommands (.init true :: chunks.map (.append true) ++ [.finish true true]) s = .next t ∧
      t.status = 0 ∧ t.out.readBytes 0 20 = some (digest chunks.flatten)

/-- R91, R253, R120, R174: the pseudo-command `hash ctx, out, <bytes>` is a run of commands that frames can carry, the
payloads of its `APPEND`s are the bytes in order, and from any state it leaves the digest of the bytes in `OUT`. -/
def Obligations.HashPseudoCommand : Prop :=
  ∀ m : List Byte,
    (∀ i ∈ hashCommands m, i.wf = true) ∧ ((hashCommands m).map payloadOf).flatten = m ∧
    (∀ s : State, s.Inv → m.length ≤ 2 ^ 61 - 1 →
      ∃ t, runCommands (hashCommands m) s = .next t ∧ t.status = 0 ∧ t.out.readBytes 0 20 = some (digest m))
end

