-- ==== Sys2Proof/Laws/Decode.lean ====
section
/-! SUPPORT. The header fields as numbers, and as the encoder packs them. -/

namespace Sys2Proof

theorem hdrOp_toNat (hdr : Word) : (hdrOp hdr).toNat = hdr.toNat % 4 := by
  simp [hdrOp, BitVec.extractLsb'_toNat]

theorem hdrLen_toNat (hdr : Word) : (hdrLen hdr).toNat = hdr.toNat / 16 := by
  have := hdr.isLt
  simp [hdrLen, BitVec.extractLsb'_toNat, Nat.shiftRight_eq_div_pow]
  omega

theorem hdrCv_eq (hdr : Word) : hdrCv hdr = decide (hdr.toNat / 4 % 2 = 1) := by
  simp [hdrCv, BitVec.getLsbD, Nat.testBit_eq_decide_div_mod_eq]

theorem hdrOv_eq (hdr : Word) : hdrOv hdr = decide (hdr.toNat / 8 % 2 = 1) := by
  simp [hdrOv, BitVec.getLsbD, Nat.testBit_eq_decide_div_mod_eq]

section
variable (len : BitVec 28) (ov cv : Bool) (op : BitVec 2)

/-- The packed header as a number: `16 * LEN + 8 * OV + 4 * CV + OP` (R83, R160). -/
theorem packHeader_toNat :
    (packHeader len ov cv op).toNat = len.toNat * 16 + ov.toNat * 8 + cv.toNat * 4 + op.toNat := by
  have := op.isLt
  unfold packHeader
  simp only [BitVec.toNat_append, BitVec.toNat_ofBool]
  rw [← Nat.shiftLeft_add_eq_or_of_lt (by omega), ← Nat.shiftLeft_add_eq_or_of_lt (by cases cv <;> decide),
    ← Nat.shiftLeft_add_eq_or_of_lt (by cases ov <;> decide)]
  simp only [Nat.shiftLeft_eq]
  omega

@[simp] theorem hdrOp_packHeader : hdrOp (packHeader len ov cv op) = op := by
  apply BitVec.eq_of_toNat_eq
  have := op.isLt
  rw [hdrOp_toNat, packHeader_toNat]
  omega

@[simp] theorem hdrLen_packHeader : hdrLen (packHeader len ov cv op) = len := by
  apply BitVec.eq_of_toNat_eq
  have := op.isLt
  rw [hdrLen_toNat, packHeader_toNat]
  cases ov <;> cases cv <;> simp <;> omega

@[simp] theorem hdrCv_packHeader : hdrCv (packHeader len ov cv op) = cv := by
  have := op.isLt
  rw [hdrCv_eq, packHeader_toNat]
  cases ov <;> cases cv <;> simp <;> omega

@[simp] theorem hdrOv_packHeader : hdrOv (packHeader len ov cv op) = ov := by
  have := op.isLt
  rw [hdrOv_eq, packHeader_toNat]
  cases ov <;> cases cv <;> simp <;> omega

end

/-- The header of the reserved operation as a number. -/
theorem reservedHeader_toNat (rest : BitVec 30) :
    ((rest ++ (3 : BitVec 2) : BitVec (30 + 2)) : Word).toNat = rest.toNat * 4 + 3 := by
  rw [BitVec.toNat_append, ← Nat.shiftLeft_add_eq_or_of_lt (by decide), Nat.shiftLeft_eq]
  rfl

theorem hdrOp_reservedHeader (rest : BitVec 30) : hdrOp (rest ++ (3 : BitVec 2) : BitVec (30 + 2)) = 3 := by
  apply BitVec.eq_of_toNat_eq
  rw [hdrOp_toNat, reservedHeader_toNat]
  show _ = 3
  omega

/-- A header with `OP = 3` is its upper 30 bits over the two of `OP`. -/
theorem reservedHeader_fields (hdr : Word) (h : hdrOp hdr = 3) :
    ((hdr.extractLsb' 2 30 ++ (3 : BitVec 2) : BitVec (30 + 2)) : Word) = hdr := by
  apply BitVec.eq_of_toNat_eq
  have hl := hdr.isLt
  have h3 : hdr.toNat % 4 = 3 := by rw [← hdrOp_toNat, h]; rfl
  rw [reservedHeader_toNat, BitVec.extractLsb'_toNat, Nat.shiftRight_eq_div_pow]
  omega

/-- A header is its four fields. -/
theorem packHeader_fields (hdr : Word) : packHeader (hdrLen hdr) (hdrOv hdr) (hdrCv hdr) (hdrOp hdr) = hdr := by
  apply BitVec.eq_of_toNat_eq
  have := hdr.isLt
  rw [packHeader_toNat, hdrLen_toNat, hdrOp_toNat, hdrCv_eq, hdrOv_eq]
  rcases Nat.mod_two_eq_zero_or_one (hdr.toNat / 8) with h8 | h8 <;>
    rcases Nat.mod_two_eq_zero_or_one (hdr.toNat / 4) with h4 | h4 <;> simp [h8, h4] <;> omega

/-- Everything a frame that decodes can be (R82 to R84, R89). -/
theorem decode_ok {hdr : Word} {pay : List Byte} {i : Instr} (h : decode hdr pay = .ok i) :
    (hdrOp hdr = 0 ∧ hdrOv hdr = false ∧ hdrLen hdr = 0 ∧ pay = [] ∧ i = .init (hdrCv hdr)) ∨
    (hdrOp hdr = 1 ∧ hdrOv hdr = false ∧ pay.length = (hdrLen hdr).toNat ∧ i = .append (hdrCv hdr) pay) ∨
    (hdrOp hdr = 2 ∧ hdrLen hdr = 0 ∧ pay = [] ∧ i = .finish (hdrCv hdr) (hdrOv hdr)) ∨
    (hdrOp hdr = 3 ∧ i = .reserved (hdr.extractLsb' 2 30) pay) := by
  unfold decode at h
  split at h
  · rename_i h0
    split at h
    · exact absurd h (by simp)
    · rename_i hov
      split at h
      · exact absurd h (by simp)
      · rename_i hlen
        split at h
        · exact absurd h (by simp)
        · rename_i hpay
          left
          exact ⟨h0, by simpa using hov, by simpa using hlen, by simpa using hpay, (Except.ok.inj h).symm⟩
  · rename_i h0
    split at h
    · rename_i h1
      split at h
      · exact absurd h (by simp)
      · rename_i hov
        split at h
        · exact absurd h (by simp)
        · rename_i hpay
          right; left
          exact ⟨h1, by simpa using hov, by simpa using hpay, (Except.ok.inj h).symm⟩
    · rename_i h1
      split at h
      · rename_i h2
        split at h
        · exact absurd h (by simp)
        · rename_i hlen
          split at h
          · exact absurd h (by simp)
          · rename_i hpay
            right; right; left
            exact ⟨h2, by simpa using hlen, by simpa using hpay, (Except.ok.inj h).symm⟩
      · rename_i h2
        right; right; right
        refine ⟨?_, (Except.ok.inj h).symm⟩
        apply BitVec.eq_of_toNat_eq
        have l := (hdrOp hdr).isLt
        have e0 : (hdrOp hdr).toNat ≠ 0 := fun e => h0 (BitVec.eq_of_toNat_eq e)
        have e1 : (hdrOp hdr).toNat ≠ 1 := fun e => h1 (BitVec.eq_of_toNat_eq e)
        have e2 : (hdrOp hdr).toNat ≠ 2 := fun e => h2 (BitVec.eq_of_toNat_eq e)
        show _ = 3
        omega

end Sys2Proof
end

