-- ==== Sys2Proof/Laws/State.lean ====
section
/-! SUPPORT. One lemma per field per update of State and Context, true by unfolding, so that no later proof opens a
record update. -/

namespace Sys2Proof.Machine

section
variable (s : State) (c : Context) (st : Status) (hdr : Word) (rest : List HostMove)

/-! `setCorrupted`, `setComputed` -/
@[simp] theorem setCorrupted_hash : (setCorrupted c).hash = c.hash := rfl
@[simp] theorem setCorrupted_bitLength : (setCorrupted c).bitLength = c.bitLength := rfl
@[simp] theorem setCorrupted_buf : (setCorrupted c).buf = c.buf := rfl
@[simp] theorem setCorrupted_blockIndex : (setCorrupted c).blockIndex = c.blockIndex := rfl
@[simp] theorem setCorrupted_computed : (setCorrupted c).computed = c.computed := rfl
@[simp] theorem setCorrupted_corrupted : (setCorrupted c).corrupted = true := rfl
@[simp] theorem setComputed_hash : (setComputed c).hash = c.hash := rfl
@[simp] theorem setComputed_bitLength : (setComputed c).bitLength = c.bitLength := rfl
@[simp] theorem setComputed_buf : (setComputed c).buf = c.buf := rfl
@[simp] theorem setComputed_blockIndex : (setComputed c).blockIndex = c.blockIndex := rfl
@[simp] theorem setComputed_computed : (setComputed c).computed = true := rfl
@[simp] theorem setComputed_corrupted : (setComputed c).corrupted = c.corrupted := rfl

/-- Marking a Context that is already marked changes nothing (R209). -/
theorem setCorrupted_of_corrupted (h : c.corrupted = true) : setCorrupted c = c := by
  cases c; simp_all [setCorrupted]

/-! `returnStatus` -/
@[simp] theorem returnStatus_ctx : (returnStatus st s).ctx = s.ctx := rfl
@[simp] theorem returnStatus_initialised : (returnStatus st s).initialised = s.initialised := rfl
@[simp] theorem returnStatus_hdr : (returnStatus st s).hdr = s.hdr := rfl
@[simp] theorem returnStatus_status : (returnStatus st s).status = statusCode st := rfl
@[simp] theorem returnStatus_out : (returnStatus st s).out = s.out := rfl
@[simp] theorem returnStatus_finishOnComputed : (returnStatus st s).finishOnComputed = s.finishOnComputed := rfl
@[simp] theorem returnStatus_pending : (returnStatus st s).pending = s.pending := rfl
@[simp] theorem returnStatus_powerOns : (returnStatus st s).powerOns = s.powerOns := rfl

/-! `errorEntry` -/
@[simp] theorem errorEntry_true_ctx : (errorEntry true st s).ctx = setCorrupted s.ctx := rfl
@[simp] theorem errorEntry_false_ctx : (errorEntry false st s).ctx = s.ctx := rfl
variable (cv : Bool)
@[simp] theorem errorEntry_status : (errorEntry cv st s).status = statusCode st := rfl
@[simp] theorem errorEntry_initialised : (errorEntry cv st s).initialised = s.initialised := by cases cv <;> rfl
@[simp] theorem errorEntry_hdr : (errorEntry cv st s).hdr = s.hdr := by cases cv <;> rfl
@[simp] theorem errorEntry_out : (errorEntry cv st s).out = s.out := by cases cv <;> rfl
@[simp] theorem errorEntry_finishOnComputed : (errorEntry cv st s).finishOnComputed = s.finishOnComputed := by
  cases cv <;> rfl
@[simp] theorem errorEntry_pending : (errorEntry cv st s).pending = s.pending := by cases cv <;> rfl
@[simp] theorem errorEntry_powerOns : (errorEntry cv st s).powerOns = s.powerOns := by cases cv <;> rfl

/-! `initContext`, `recover` -/
@[simp] theorem initContext_hash : (initContext c).hash = initialHash := by simp only [initContext]
@[simp] theorem initContext_bitLength : (initContext c).bitLength = 0 := by simp only [initContext]
@[simp] theorem initContext_buf : (initContext c).buf = zeroBuf c.buf := by simp only [initContext]
@[simp] theorem initContext_blockIndex : (initContext c).blockIndex = 0 := by simp only [initContext]
@[simp] theorem initContext_computed : (initContext c).computed = false := by simp only [initContext]
@[simp] theorem initContext_corrupted : (initContext c).corrupted = false := by simp only [initContext]
@[simp] theorem recover_ctx : (recover s).ctx = initContext s.ctx := rfl
@[simp] theorem recover_initialised : (recover s).initialised = true := rfl
@[simp] theorem recover_hdr : (recover s).hdr = s.hdr := rfl
@[simp] theorem recover_status : (recover s).status = s.status := rfl
@[simp] theorem recover_out : (recover s).out = s.out := rfl
@[simp] theorem recover_finishOnComputed : (recover s).finishOnComputed = s.finishOnComputed := rfl
@[simp] theorem recover_pending : (recover s).pending = s.pending := rfl
@[simp] theorem recover_powerOns : (recover s).powerOns = s.powerOns := rfl

/-! `deliverDigest` -/
@[simp] theorem deliverDigest_ctx : (deliverDigest s).ctx = s.ctx := by simp only [deliverDigest, returnStatus]
@[simp] theorem deliverDigest_initialised : (deliverDigest s).initialised = s.initialised := by simp only [deliverDigest, returnStatus]
@[simp] theorem deliverDigest_hdr : (deliverDigest s).hdr = s.hdr := by simp only [deliverDigest, returnStatus]
@[simp] theorem deliverDigest_status : (deliverDigest s).status = statusCode .success := by simp only [deliverDigest, returnStatus]
@[simp] theorem deliverDigest_out : (deliverDigest s).out = serialise s.ctx.hash s.out := by simp only [deliverDigest, returnStatus]
@[simp] theorem deliverDigest_finishOnComputed : (deliverDigest s).finishOnComputed = s.finishOnComputed := by simp only [deliverDigest, returnStatus]
@[simp] theorem deliverDigest_pending : (deliverDigest s).pending = s.pending := by simp only [deliverDigest, returnStatus]
@[simp] theorem deliverDigest_powerOns : (deliverDigest s).powerOns = s.powerOns := by simp only [deliverDigest, returnStatus]

/-! `acceptFrame` -/
@[simp] theorem acceptFrame_ctx : (acceptFrame hdr rest s).ctx = s.ctx := rfl
@[simp] theorem acceptFrame_initialised : (acceptFrame hdr rest s).initialised = s.initialised := rfl
@[simp] theorem acceptFrame_hdr : (acceptFrame hdr rest s).hdr = hdr := rfl
@[simp] theorem acceptFrame_status : (acceptFrame hdr rest s).status = s.status := rfl
@[simp] theorem acceptFrame_out : (acceptFrame hdr rest s).out = s.out := rfl
@[simp] theorem acceptFrame_finishOnComputed : (acceptFrame hdr rest s).finishOnComputed = s.finishOnComputed := rfl
@[simp] theorem acceptFrame_pending : (acceptFrame hdr rest s).pending = rest := rfl
@[simp] theorem acceptFrame_powerOns : (acceptFrame hdr rest s).powerOns = s.powerOns := rfl

/-! `powerOn` -/
@[simp] theorem powerOn_ctx : (powerOn s).ctx = Context.poweredOn (s.powerOns + 1) := rfl
@[simp] theorem powerOn_initialised : (powerOn s).initialised = false := rfl
@[simp] theorem powerOn_hdr : (powerOn s).hdr = Config.powerOnHdr (s.powerOns + 1) := rfl
@[simp] theorem powerOn_status : (powerOn s).status = Config.powerOnStatus (s.powerOns + 1) := rfl
@[simp] theorem powerOn_out : (powerOn s).out = s.out := rfl
@[simp] theorem powerOn_finishOnComputed : (powerOn s).finishOnComputed = s.finishOnComputed := rfl
@[simp] theorem powerOn_pending : (powerOn s).pending = s.pending := rfl
@[simp] theorem powerOn_powerOns : (powerOn s).powerOns = s.powerOns + 1 := rfl
@[simp] theorem poweredOn_buf (n : Nat) : (Context.poweredOn n).buf = Memory.filled 64 (Config.powerOnBuf n) := rfl

/-! `insertLength`, `cleanUp` -/
@[simp] theorem insertLength_hash : (insertLength c).hash = c.hash := by simp only [insertLength]
@[simp] theorem insertLength_bitLength : (insertLength c).bitLength = c.bitLength := by simp only [insertLength]
@[simp] theorem insertLength_blockIndex : (insertLength c).blockIndex = c.blockIndex := by simp only [insertLength]
@[simp] theorem insertLength_computed : (insertLength c).computed = c.computed := by simp only [insertLength]
@[simp] theorem insertLength_corrupted : (insertLength c).corrupted = c.corrupted := by simp only [insertLength]
@[simp] theorem cleanUp_hash : (cleanUp c).hash = c.hash := by simp only [cleanUp, setComputed]
@[simp] theorem cleanUp_bitLength : (cleanUp c).bitLength = c.bitLength := by simp only [cleanUp, setComputed]
@[simp] theorem cleanUp_buf : (cleanUp c).buf = zeroBuf c.buf := by simp only [cleanUp, setComputed]
@[simp] theorem cleanUp_blockIndex : (cleanUp c).blockIndex = c.blockIndex := by simp only [cleanUp, setComputed]
@[simp] theorem cleanUp_computed : (cleanUp c).computed = true := by simp only [cleanUp, setComputed]
@[simp] theorem cleanUp_corrupted : (cleanUp c).corrupted = c.corrupted := by simp only [cleanUp, setComputed]

end

end Sys2Proof.Machine
end

