-- ==== Sys2Proof/Laws/Memory.lean ====
section
/-! SUPPORT. The byte spaces: a read after a write, that every operation keeps the canonical form, and what the block
reads and writes of the commands do. -/

namespace Sys2Proof.Machine

/-! ### One byte -/

@[simp] theorem Memory.read_nil (a : Nat) : Memory.read [] a = none := rfl

theorem Memory.read_cons (k : Nat) (w : Byte) (rest : Memory) (a : Nat) :
    Memory.read ((k, w) :: rest) a = if k = a then some w else Memory.read rest a := rfl

@[simp] theorem Memory.read_write_same (m : Memory) (a : Nat) (v : Byte) : (m.write a v).read a = some v := by
  induction m with
  | nil => simp [Memory.write, Memory.read_cons]
  | cons c rest ih =>
    obtain ⟨k, w⟩ := c
    simp only [Memory.write]
    split
    · simp [Memory.read_cons]
    · split
      · simp [Memory.read_cons]
      · rename_i h
        rw [Memory.read_cons, if_neg (Ne.symm h), ih]

theorem Memory.read_write_ne (m : Memory) {a b : Nat} (v : Byte) (h : a ≠ b) : (m.write b v).read a = m.read a := by
  induction m with
  | nil => simp [Memory.write, Memory.read_cons, h.symm]
  | cons c rest ih =>
    obtain ⟨k, w⟩ := c
    simp only [Memory.write]
    split
    · rw [Memory.read_cons, if_neg h.symm]
    · split
      · rename_i hk
        subst hk
        simp [Memory.read_cons, h.symm]
      · simp [Memory.read_cons, ih]

theorem Memory.read_write (m : Memory) (a b : Nat) (v : Byte) :
    (m.write b v).read a = if a = b then some v else m.read a := by
  split
  · rename_i h; subst h; simp
  · rename_i h; exact m.read_write_ne v h

/-! ### Canonical form -/

theorem Memory.risesFrom_write (m : Memory) (lo a : Nat) (v : Byte) (h : Memory.risesFrom lo m = true) (ha : lo ≤ a) :
    Memory.risesFrom lo (m.write a v) = true := by
  induction m generalizing lo with
  | nil => simpa [Memory.write, Memory.risesFrom] using ha
  | cons c rest ih =>
    obtain ⟨k, w⟩ := c
    simp only [Memory.risesFrom, Bool.and_eq_true, decide_eq_true_eq] at h
    simp only [Memory.write]
    split
    · rename_i hk
      simp only [Memory.risesFrom, Bool.and_eq_true, decide_eq_true_eq]
      exact ⟨ha, by omega, h.2⟩
    · split
      · rename_i hk
        subst hk
        simp only [Memory.risesFrom, Bool.and_eq_true, decide_eq_true_eq]
        exact h
      · simp only [Memory.risesFrom, Bool.and_eq_true, decide_eq_true_eq]
        exact ⟨h.1, ih _ h.2 (by omega)⟩

theorem Memory.inside_write (size : Nat) (m : Memory) (a : Nat) (v : Byte) (ha : a < size)
    (h : (m.all fun c => decide (c.1 < size)) = true) : ((m.write a v).all fun c => decide (c.1 < size)) = true := by
  induction m with
  | nil => simpa [Memory.write] using ha
  | cons c rest ih =>
    obtain ⟨k, w⟩ := c
    simp only [List.all_cons, Bool.and_eq_true, decide_eq_true_eq] at h
    simp only [Memory.write]
    split
    · simp only [List.all_cons, Bool.and_eq_true, decide_eq_true_eq]; exact ⟨ha, h⟩
    · split
      · simp only [List.all_cons, Bool.and_eq_true, decide_eq_true_eq]; exact ⟨ha, h.2⟩
      · simp only [List.all_cons, Bool.and_eq_true, decide_eq_true_eq]; exact ⟨h.1, ih h.2⟩

theorem Memory.readBytes_isSome (m : Memory) (n a : Nat) :
    (m.readBytes a n).isSome = true ↔ ∀ k, k < n → (m.read (a + k)).isSome = true := by
  induction n generalizing a with
  | zero => simp [Memory.readBytes]
  | succ n ih =>
    have hstep : (m.readBytes a (n + 1)).isSome = ((m.read a).isSome && (m.readBytes (a + 1) n).isSome) := by
      simp only [Memory.readBytes]
      cases m.read a <;> cases m.readBytes (a + 1) n <;> rfl
    rw [hstep, Bool.and_eq_true, ih]
    constructor
    · rintro ⟨h0, h⟩ k hk
      cases k with
      | zero => simpa using h0
      | succ k => rw [show a + (k + 1) = a + 1 + k by omega]; exact h k (by omega)
    · intro h
      exact ⟨by simpa using h 0 (by omega), fun k hk => by
        rw [show a + 1 + k = a + (k + 1) by omega]; exact h (k + 1) (by omega)⟩

theorem Memory.full_iff (size : Nat) (m : Memory) :
    Memory.full size m = true ↔ ∀ k, k < size → (m.read k).isSome = true := by
  unfold Memory.full
  rw [Memory.readBytes_isSome]
  simp

/-- A write leaves every byte that had a value with one. -/
theorem Memory.full_write {size : Nat} {m : Memory} (a : Nat) (v : Byte) (h : Memory.full size m = true) :
    Memory.full size (m.write a v) = true := by
  rw [Memory.full_iff] at h ⊢
  intro k hk
  rw [Memory.read_write]
  split
  · rfl
  · exact h k hk

theorem Memory.full_writeBytes {size : Nat} (bs : List Byte) {m : Memory} (a : Nat) (h : Memory.full size m = true) :
    Memory.full size (m.writeBytes a bs) = true := by
  induction bs generalizing m a with
  | nil => exact h
  | cons b bs ih => exact ih _ (Memory.full_write a b h)

theorem Memory.full_of_wf {size : Nat} {m : Memory} (h : Memory.wf size m = true) : Memory.full size m = true := by
  simp only [Memory.wf, Bool.and_eq_true] at h
  exact h.2

/-- In a space in canonical form, exactly the addresses of the space have a byte. -/
theorem Memory.read_isSome_of_wf {size : Nat} {m : Memory} (h : Memory.wf size m = true) {a : Nat} (ha : a < size) :
    (m.read a).isSome = true := (Memory.full_iff size m).1 (Memory.full_of_wf h) a ha

/-- A write inside the space keeps the canonical form. -/
theorem Memory.wf_write {size : Nat} {m : Memory} {a : Nat} (v : Byte) (h : Memory.wf size m = true) (ha : a < size) :
    Memory.wf size (m.write a v) = true := by
  simp only [Memory.wf, Bool.and_eq_true] at h ⊢
  exact ⟨⟨Memory.risesFrom_write m 0 a v h.1.1 (Nat.zero_le a), Memory.inside_write size m a v ha h.1.2⟩,
    Memory.full_write a v h.2⟩

theorem Memory.wf_writeBytes {size : Nat} (bs : List Byte) {m : Memory} {a : Nat} (h : Memory.wf size m = true)
    (ha : a + bs.length ≤ size) : Memory.wf size (m.writeBytes a bs) = true := by
  induction bs generalizing m a with
  | nil => exact h
  | cons b bs ih =>
    simp only [List.length_cons] at ha
    exact ih (Memory.wf_write b h (by omega)) (by omega)

@[simp] theorem beBytes_length (n v : Nat) : (beBytes n v).length = n := by
  induction n with
  | zero => rfl
  | succ n ih => simp [beBytes, ih]

theorem memWrite_wf {size addr n : Nat} (v : Nat) {m : Memory} (h : Memory.wf size m = true) (ha : addr + n ≤ size) :
    Memory.wf size (memWrite m addr n v) = true := by
  unfold memWrite
  exact Memory.wf_writeBytes _ h (by simpa using ha)

theorem zeroBuf_wf {m : Memory} (h : Memory.wf 64 m = true) : Memory.wf 64 (zeroBuf m) = true := by
  unfold zeroBuf
  exact Memory.wf_writeBytes _ h (by simp)

theorem insertLength_wf {c : Context} (h : Memory.wf 64 c.buf = true) : Memory.wf 64 (insertLength c).buf = true := by
  simp only [insertLength]
  exact memWrite_wf _ (memWrite_wf _ h (by decide)) (by decide)

theorem serialise_wf (h : Hash) {out : Memory} (w : Memory.wf 20 out = true) : Memory.wf 20 (serialise h out) = true := by
  simp only [serialise]
  have h0 := memWrite_wf (addr := 0) (n := 4) h.h0.toNat w (by decide)
  have h1 := memWrite_wf (addr := 4) (n := 4) h.h1.toNat h0 (by decide)
  have h2 := memWrite_wf (addr := 8) (n := 4) h.h2.toNat h1 (by decide)
  have h3 := memWrite_wf (addr := 12) (n := 4) h.h3.toNat h2 (by decide)
  exact memWrite_wf (addr := 16) (n := 4) h.h4.toNat h3 (by decide)

theorem Memory.read_range' (f : Nat → Byte) (n lo a : Nat) :
    Memory.read ((List.range' lo n).map fun k => (k, f k)) a = if lo ≤ a ∧ a < lo + n then some (f a) else none := by
  induction n generalizing lo with
  | zero => rw [if_neg (by omega)]; rfl
  | succ n ih =>
    rw [List.range'_succ, List.map_cons, Memory.read_cons, ih]
    by_cases h : lo = a
    · subst h; rw [if_pos rfl, if_pos (by omega)]
    · rw [if_neg h]
      exact if_congr (by omega) rfl rfl

/-- What a filled space holds at each address. -/
@[simp] theorem Memory.read_filled (size : Nat) (f : Nat → Byte) (a : Nat) :
    (Memory.filled size f).read a = if a < size then some (f a) else none := by
  unfold Memory.filled
  rw [List.range_eq_range', Memory.read_range']
  exact if_congr (by omega) rfl rfl

theorem Memory.risesFrom_range' (f : Nat → Byte) (n lo : Nat) :
    Memory.risesFrom lo ((List.range' lo n).map fun k => (k, f k)) = true := by
  induction n generalizing lo with
  | zero => rfl
  | succ n ih => simp [List.range'_succ, Memory.risesFrom, ih]

/-- A filled space has the canonical form, whatever its bytes. -/
theorem Memory.wf_filled (size : Nat) (f : Nat → Byte) : Memory.wf size (Memory.filled size f) = true := by
  simp only [Memory.wf, Bool.and_eq_true]
  refine ⟨⟨?_, by simp [Memory.filled]⟩, (Memory.full_iff _ _).2 fun k hk => by simp [hk]⟩
  unfold Memory.filled
  rw [List.range_eq_range']
  exact Memory.risesFrom_range' f size 0

/-- The memory of the reset state has the canonical form. -/
theorem reset_memory_wf : Memory.wf 20 State.reset.out = true ∧ Memory.wf 64 State.reset.ctx.buf = true :=
  ⟨Memory.wf_filled _ _, Memory.wf_filled _ _⟩

theorem Memory.read_none_of_risesFrom (m : Memory) {lo a : Nat} (h : Memory.risesFrom lo m = true) (ha : a < lo) :
    m.read a = none := by
  induction m generalizing lo with
  | nil => rfl
  | cons c rest ih =>
    obtain ⟨k, w⟩ := c
    simp only [Memory.risesFrom, Bool.and_eq_true, decide_eq_true_eq] at h
    rw [Memory.read_cons, if_neg (by omega)]
    exact ih h.2 (by omega)

theorem Memory.read_none_of_wf {size : Nat} {m : Memory} (h : Memory.wf size m = true) {a : Nat} (ha : size ≤ a) :
    m.read a = none := by
  simp only [Memory.wf, Bool.and_eq_true] at h
  replace h := h.1.2
  induction m with
  | nil => rfl
  | cons c rest ih =>
    obtain ⟨k, w⟩ := c
    simp only [List.all_cons, Bool.and_eq_true, decide_eq_true_eq] at h
    rw [Memory.read_cons, if_neg (by omega)]
    exact ih h.2

/-- Equal reads at every address make equal memories: the canonical form names each content once. -/
theorem Memory.ext_of_risesFrom (m n : Memory) {lo : Nat} (hm : Memory.risesFrom lo m = true)
    (hn : Memory.risesFrom lo n = true) (h : ∀ a, m.read a = n.read a) : m = n := by
  induction m generalizing n lo with
  | nil =>
    cases n with
    | nil => rfl
    | cons d rest =>
      obtain ⟨k, w⟩ := d
      have := h k
      simp [Memory.read_cons] at this
  | cons c rest ih =>
    obtain ⟨k, w⟩ := c
    simp only [Memory.risesFrom, Bool.and_eq_true, decide_eq_true_eq] at hm
    cases n with
    | nil =>
      have := h k
      simp [Memory.read_cons] at this
    | cons d rest' =>
      obtain ⟨k', w'⟩ := d
      simp only [Memory.risesFrom, Bool.and_eq_true, decide_eq_true_eq] at hn
      have hk : k = k' := by
        rcases Nat.lt_trichotomy k k' with hlt | heq | hgt
        · have := h k
          rw [Memory.read_cons, if_pos rfl, Memory.read_cons, if_neg (by omega),
            Memory.read_none_of_risesFrom rest' hn.2 (by omega)] at this
          exact absurd this (by simp)
        · exact heq
        · have := h k'
          rw [Memory.read_cons, if_neg (by omega), Memory.read_none_of_risesFrom rest hm.2 (by omega),
            Memory.read_cons, if_pos rfl] at this
          exact absurd this (by simp)
      subst hk
      have hw : w = w' := by
        have := h k
        simpa [Memory.read_cons] using this
      subst hw
      have hrest : rest = rest' := by
        refine ih rest' hm.2 hn.2 fun a => ?_
        by_cases ha : k = a
        · subst ha
          rw [Memory.read_none_of_risesFrom rest hm.2 (by omega), Memory.read_none_of_risesFrom rest' hn.2 (by omega)]
        · have := h a
          rwa [Memory.read_cons, if_neg ha, Memory.read_cons, if_neg ha] at this
      rw [hrest]

theorem Memory.ext_of_wf {size : Nat} {m n : Memory} (hm : Memory.wf size m = true) (hn : Memory.wf size n = true)
    (h : ∀ a, m.read a = n.read a) : m = n := by
  simp only [Memory.wf, Bool.and_eq_true] at hm hn
  exact Memory.ext_of_risesFrom m n hm.1.1 hn.1.1 h

/-! ### Several bytes -/

/-- What a block write leaves at each address. -/
theorem Memory.read_writeBytes (bs : List Byte) (m : Memory) (a x : Nat) :
    (m.writeBytes a bs).read x = if a ≤ x ∧ x < a + bs.length then bs[x - a]? else m.read x := by
  induction bs generalizing m a with
  | nil => simp [Memory.writeBytes]
  | cons b bs ih =>
    simp only [Memory.writeBytes, List.length_cons]
    rw [ih]
    by_cases hx : x = a
    · subst hx
      rw [if_neg (by omega), if_pos (by omega)]
      simp
    · by_cases hin : a + 1 ≤ x ∧ x < a + 1 + bs.length
      · rw [if_pos hin, if_pos (by omega)]
        obtain ⟨k, hk⟩ : ∃ k, x - a = k + 1 := ⟨x - a - 1, by omega⟩
        rw [hk, show x - (a + 1) = k by omega, List.getElem?_cons_succ]
      · rw [if_neg hin, if_neg (by omega), Memory.read_write_ne m b hx]

theorem Memory.read_zeroBuf (m : Memory) (a : Nat) :
    (zeroBuf m).read a = if a < 64 then some 0 else m.read a := by
  unfold zeroBuf
  rw [Memory.read_writeBytes]
  by_cases h : a < 64
  · simp [h]
  · simp [h]

/-- A block read succeeds with `bs` exactly when `bs` are the bytes at those addresses. -/
theorem Memory.readBytes_eq_some (m : Memory) (n a : Nat) (bs : List Byte) :
    m.readBytes a n = some bs ↔ bs.length = n ∧ ∀ k, k < n → m.read (a + k) = bs[k]? := by
  induction n generalizing a bs with
  | zero => cases bs <;> simp [Memory.readBytes]
  | succ n ih =>
    simp only [Memory.readBytes]
    cases hr : m.read a with
    | none =>
      simp only [reduceCtorEq, false_iff, not_and]
      intro hl h
      have := h 0 (by omega)
      rw [Nat.add_zero, hr] at this
      cases bs with
      | nil => simp at hl
      | cons b bs => simp at this
    | some b =>
      cases hrs : m.readBytes (a + 1) n with
      | none =>
        simp only [reduceCtorEq, false_iff, not_and]
        intro hl h
        cases bs with
        | nil => simp at hl
        | cons b' bs =>
          have hh := (ih (a + 1) bs).2 ⟨by simpa using hl, fun k hk => by
            have := h (k + 1) (by omega)
            rwa [show a + (k + 1) = a + 1 + k by omega, List.getElem?_cons_succ] at this⟩
          rw [hrs] at hh
          exact absurd hh (by simp)
      | some bs' =>
        obtain ⟨hl', hget⟩ := (ih (a + 1) bs').1 hrs
        simp only [Option.some.injEq]
        constructor
        · rintro rfl
          refine ⟨by simp [hl'], fun k hk => ?_⟩
          cases k with
          | zero => simpa using hr
          | succ k => rw [show a + (k + 1) = a + 1 + k by omega, List.getElem?_cons_succ]; exact hget k (by omega)
        · rintro ⟨hl, h⟩
          cases bs with
          | nil => simp at hl
          | cons b2 bs =>
            have h0 := h 0 (by omega)
            rw [Nat.add_zero, hr] at h0
            simp only [List.getElem?_cons_zero, Option.some.injEq] at h0
            have := (ih (a + 1) bs).2 ⟨by simpa using hl, fun k hk => by
              have := h (k + 1) (by omega)
              rwa [show a + (k + 1) = a + 1 + k by omega, List.getElem?_cons_succ] at this⟩
            rw [hrs] at this
            rw [h0, Option.some.inj this]

theorem insertLength_full {c : Context} (h : Memory.full 64 c.buf = true) : Memory.full 64 (insertLength c).buf = true := by
  simp only [insertLength, memWrite]
  exact Memory.full_writeBytes _ _ (Memory.full_writeBytes _ _ h)

theorem zeroBuf_full (m : Memory) : Memory.full 64 (zeroBuf m) = true := by
  rw [Memory.full_iff]
  intro k hk
  simp [Memory.read_zeroBuf, hk]

end Sys2Proof.Machine
end

