-- ==== Sys2Proof/Laws/Ops.lean ====
section
/-! SUPPORT. One lemma per shared operation on the buffer that says everything it can do when it answers, and one that
says when it answers. Later proofs cite these and do not unfold the operations. -/

namespace Sys2Proof.Machine

/-! ### `store`, `compressBlock`, `flushIfFull` -/

theorem store_ok {v : Byte} {c c' : Context} :
    store v c = .ok c' ↔
      c.blockIndex.toNat < 64 ∧
        c' = { c with buf := c.buf.write c.blockIndex.toNat v, blockIndex := c.blockIndex + 1 } := by
  unfold store
  split
  · rename_i h
    simp only [Except.ok.injEq]
    exact ⟨fun e => ⟨h, e.symm⟩, fun e => e.2.symm⟩
  · rename_i h
    simp only [reduceCtorEq, false_iff, not_and]
    exact fun h' => absurd h' h

theorem compressBlock_ok {c c' : Context} :
    compressBlock c = .ok c' ↔
      ∃ blk, c.buf.readBytes 0 64 = some blk ∧ c' = { c with hash := compress c.hash blk, blockIndex := 0 } := by
  unfold compressBlock
  split
  · rename_i blk h
    simp only [Except.ok.injEq, h, Option.some.injEq]
    exact ⟨fun e => ⟨blk, rfl, e.symm⟩, fun ⟨b, hb, e⟩ => by subst hb; exact e.symm⟩
  · rename_i h
    simp [h]

/-- The transform runs whenever every byte of the block has a value. -/
theorem compressBlock_completes {c : Context} (h : Memory.full 64 c.buf = true) :
    ∃ blk, c.buf.readBytes 0 64 = some blk ∧
      compressBlock c = .ok { c with hash := compress c.hash blk, blockIndex := 0 } := by
  obtain ⟨blk, hb⟩ := Option.isSome_iff_exists.1 h
  exact ⟨blk, hb, compressBlock_ok.2 ⟨blk, hb, rfl⟩⟩

theorem blockFull_iff {c : Context} : blockFull c = true ↔ c.blockIndex.toNat = 64 := by simp [blockFull]

theorem flushIfFull_below {c : Context} (h : c.blockIndex.toNat ≠ 64) : flushIfFull c = .ok c := by
  unfold flushIfFull
  rw [if_neg]
  rwa [blockFull_iff]

theorem flushIfFull_full {c : Context} (h : c.blockIndex.toNat = 64) : flushIfFull c = compressBlock c := by
  unfold flushIfFull
  rw [if_pos]
  rwa [blockFull_iff]

/-! ### `storeFlush`, the byte path of `APPEND` and of the padding engine -/

theorem cursor_succ {i : BitVec 7} (h : i.toNat < 64) : (i + 1).toNat = i.toNat + 1 := by
  rw [BitVec.toNat_add]
  simp
  omega

/-- Everything one stored byte can do: below the end of the block it is stored and the cursor advances; at 63 the block is
compressed as well and the cursor returns to 0. -/
theorem storeFlush_ok {v : Byte} {c c' : Context} (h : storeFlush v c = .ok c') :
    (c.blockIndex.toNat < 63 ∧
      c' = { c with buf := c.buf.write c.blockIndex.toNat v, blockIndex := c.blockIndex + 1 }) ∨
    (c.blockIndex.toNat = 63 ∧ ∃ blk, (c.buf.write 63 v).readBytes 0 64 = some blk ∧
      c' = { c with hash := compress c.hash blk, buf := c.buf.write 63 v, blockIndex := 0 }) := by
  unfold storeFlush at h
  cases hs : store v c with
  | error f => rw [hs] at h; exact absurd h (by simp [Except.bind])
  | ok c1 =>
    rw [hs] at h
    simp only [Except.bind] at h
    obtain ⟨hlt, rfl⟩ := store_ok.1 hs
    rcases Nat.lt_or_ge c.blockIndex.toNat 63 with h63 | h63
    · left
      rw [flushIfFull_below (by simp only [cursor_succ hlt]; omega)] at h
      exact ⟨h63, (Except.ok.inj h).symm⟩
    · right
      have h63 : c.blockIndex.toNat = 63 := by omega
      rw [flushIfFull_full (by simp only [cursor_succ hlt]; omega), compressBlock_ok] at h
      obtain ⟨blk, hb, rfl⟩ := h
      simp only [h63] at hb ⊢
      exact ⟨trivial, blk, hb, rfl⟩

/-- Below the end of the block a store answers. -/
theorem storeFlush_below {v : Byte} {c : Context} (h : c.blockIndex.toNat < 63) :
    storeFlush v c = .ok { c with buf := c.buf.write c.blockIndex.toNat v, blockIndex := c.blockIndex + 1 } := by
  unfold storeFlush
  rw [store_ok.2 ⟨by omega, rfl⟩]
  simp only [Except.bind]
  exact flushIfFull_below (by simp only [cursor_succ (show c.blockIndex.toNat < 64 by omega)]; omega)

/-- At the end of the block it answers when the block can be read. -/
theorem storeFlush_last {v : Byte} {c : Context} {blk : List Byte} (h : c.blockIndex.toNat = 63)
    (hb : (c.buf.write 63 v).readBytes 0 64 = some blk) :
    storeFlush v c = .ok { c with hash := compress c.hash blk, buf := c.buf.write 63 v, blockIndex := 0 } := by
  unfold storeFlush
  rw [store_ok.2 ⟨by omega, rfl⟩]
  simp only [Except.bind, h]
  rw [flushIfFull_full (by simp only [cursor_succ (show c.blockIndex.toNat < 64 by omega)]; omega),
    compressBlock_ok.2 ⟨blk, hb, rfl⟩]

/-- From a cursor in 0..63 and a buffer whose bytes all have a value, a store answers. -/
theorem storeFlush_completes {v : Byte} {c : Context} (h : c.blockIndex.toNat < 64) (hf : Memory.full 64 c.buf = true) :
    ∃ c', storeFlush v c = .ok c' := by
  rcases Nat.lt_or_ge c.blockIndex.toNat 63 with h63 | h63
  · exact ⟨_, storeFlush_below h63⟩
  · obtain ⟨blk, hb⟩ := Option.isSome_iff_exists.1 (Memory.full_write 63 v hf)
    exact ⟨_, storeFlush_last (by omega) hb⟩

section
variable {v : Byte} {c c' : Context} (h : storeFlush v c = .ok c')
include h

theorem storeFlush_cursor_lt : c.blockIndex.toNat < 64 := by
  rcases storeFlush_ok h with ⟨h1, -⟩ | ⟨h1, -⟩ <;> omega

theorem storeFlush_cursor : c'.blockIndex.toNat = (c.blockIndex.toNat + 1) % 64 := by
  rcases storeFlush_ok h with ⟨h1, rfl⟩ | ⟨h1, blk, -, rfl⟩
  · simp only [cursor_succ (show c.blockIndex.toNat < 64 by omega)]
    omega
  · simp [h1]

theorem storeFlush_buf : c'.buf = c.buf.write c.blockIndex.toNat v := by
  rcases storeFlush_ok h with ⟨h1, rfl⟩ | ⟨h1, blk, -, rfl⟩
  · rfl
  · simp [h1]

theorem storeFlush_bitLength : c'.bitLength = c.bitLength := by
  rcases storeFlush_ok h with ⟨-, rfl⟩ | ⟨-, blk, -, rfl⟩ <;> rfl

theorem storeFlush_computed : c'.computed = c.computed := by
  rcases storeFlush_ok h with ⟨-, rfl⟩ | ⟨-, blk, -, rfl⟩ <;> rfl

theorem storeFlush_corrupted : c'.corrupted = c.corrupted := by
  rcases storeFlush_ok h with ⟨-, rfl⟩ | ⟨-, blk, -, rfl⟩ <;> rfl

theorem storeFlush_hash (h63 : c.blockIndex.toNat < 63) : c'.hash = c.hash := by
  rcases storeFlush_ok h with ⟨-, rfl⟩ | ⟨h1, -⟩
  · rfl
  · omega

theorem storeFlush_wf (hw : Memory.wf 64 c.buf = true) : Memory.wf 64 c'.buf = true := by
  rw [storeFlush_buf h]
  exact Memory.wf_write v hw (storeFlush_cursor_lt h)

theorem storeFlush_full (hf : Memory.full 64 c.buf = true) : Memory.full 64 c'.buf = true := by
  rw [storeFlush_buf h]
  exact Memory.full_write _ v hf

end

/-! ### `absorb` and the byte loop -/

/-- Absorbing a byte is counting it and storing it: the flush reads neither the counter nor the flags. -/
theorem absorb_eq (v : Byte) (c : Context) : absorb v c = storeFlush v { c with bitLength := c.bitLength + 8 } := by
  unfold absorb storeFlush store
  by_cases h : c.blockIndex.toNat < Config.blockBytes
  · simp only [if_pos h, Except.bind]
    rfl
  · simp only [if_neg h, Except.bind]

theorem lengthWouldOverflow_iff {c : Context} : lengthWouldOverflow c = true ↔ c.bitLength.toNat + 8 > 2 ^ 64 - 1 := by
  simp only [lengthWouldOverflow, decide_eq_true_eq]

theorem count_succ {c : Context} (h : lengthWouldOverflow c = false) : (c.bitLength + 8).toNat = c.bitLength.toNat + 8 := by
  have h' : ¬ (c.bitLength.toNat + 8 > 2 ^ 64 - 1) := by
    rw [← lengthWouldOverflow_iff, h]
    simp
  rw [BitVec.toNat_add]
  simp
  omega

@[simp] theorem absorbAll_nil (c : Context) : absorbAll [] c = .ok (c, .success) := rfl

theorem absorbAll_cons (v : Byte) (vs : List Byte) (c : Context) :
    absorbAll (v :: vs) c =
      if lengthWouldOverflow c then .ok (c, .inputTooLong) else (absorb v c).bind (absorbAll vs) := rfl

/-- The byte loop, by what each byte does: a property of the Context that one absorbed byte keeps, the whole loop keeps. -/
theorem absorbAll_keeps {P : Context → Prop}
    (hP : ∀ v c c', P c → lengthWouldOverflow c = false → absorb v c = .ok c' → P c') (pay : List Byte) :
    ∀ c r, P c → absorbAll pay c = .ok r → P r.1 := by
  induction pay with
  | nil =>
    intro c r hc h
    rw [absorbAll_nil] at h
    rw [← Except.ok.inj h]
    exact hc
  | cons v vs ih =>
    intro c r hc h
    rw [absorbAll_cons] at h
    split at h
    · rw [← Except.ok.inj h]
      exact hc
    · rename_i ho
      cases ha : absorb v c with
      | error f => rw [ha] at h; exact absurd h (by simp [Except.bind])
      | ok c1 =>
        rw [ha] at h
        exact ih c1 r (hP v c c1 hc (by simpa using ho) ha) h

/-- The loop answers only `Success` or `InputTooLong`. -/
theorem absorbAll_status (pay : List Byte) :
    ∀ c c' st, absorbAll pay c = .ok (c', st) → st = .success ∨ st = .inputTooLong := by
  induction pay with
  | nil =>
    intro c c' st h
    rw [absorbAll_nil] at h
    left
    exact (Prod.mk.inj (Except.ok.inj h)).2.symm
  | cons v vs ih =>
    intro c c' st h
    rw [absorbAll_cons] at h
    split at h
    · right
      exact (Prod.mk.inj (Except.ok.inj h)).2.symm
    · cases ha : absorb v c with
      | error f => rw [ha] at h; exact absurd h (by simp [Except.bind])
      | ok c1 => rw [ha] at h; exact ih c1 c' st h

/-- The loop over a concatenation is the loop over the first part and then, if that succeeded, over the second. -/
theorem absorbAll_append (xs ys : List Byte) (c : Context) :
    absorbAll (xs ++ ys) c =
      (absorbAll xs c).bind fun r => if r.2 = .success then absorbAll ys r.1 else .ok r := by
  induction xs generalizing c with
  | nil => simp [Except.bind]
  | cons v vs ih =>
    rw [List.cons_append, absorbAll_cons, absorbAll_cons]
    split
    · simp [Except.bind]
    · cases absorb v c with
      | error f => rfl
      | ok c1 => exact ih c1

/-! ### The error entry and the statuses -/

@[simp] theorem statusCode_success : statusCode .success = 0 := rfl
@[simp] theorem statusCode_nullPointer : statusCode .nullPointer = 1 := rfl
@[simp] theorem statusCode_inputTooLong : statusCode .inputTooLong = 2 := rfl
@[simp] theorem statusCode_stateError : statusCode .stateError = 3 := rfl

/-- Two statuses have the same number only if they are the same. -/
theorem statusCode_injective {a b : Status} (h : statusCode a = statusCode b) : a = b := by
  cases a <;> cases b <;> first | rfl | exact absurd h (by decide)

/-- Everything the error entry does (R206). -/
theorem errorEntry_eq (cv : Bool) (st : Status) (s : State) :
    errorEntry cv st s =
      { s with
        ctx := { s.ctx with corrupted := if cv then true else s.ctx.corrupted }
        status := statusCode st } := by
  cases cv <;> rfl

/-- Everything a host's write to `OUT` can do. -/
theorem hostWriteOut_next {addr : Nat} {v : Byte} {s t : State} (h : hostWriteOut addr v s = .next t) :
    addr < 20 ∧ t = { s with out := s.out.write addr v } := by
  unfold hostWriteOut at h
  split at h
  · rename_i ha
    exact ⟨ha, (Host.Outcome.next.inj h).symm⟩
  · exact absurd h (by simp)

end Sys2Proof.Machine
end

