-- ==== Sys2Proof/Laws/Exec.lean ====
section
/-! SUPPORT. What each command can do when it answers a next state: one lemma per meaning that lists its cases, and what
the loop of `APPEND` and the padding path of `FINISH` do to each field. Later proofs split on these cases. -/

namespace Sys2Proof.Machine

/-! ### `INIT` -/

theorem execInit_true (s : State) : execInit true s = .next (returnStatus .success (recover s)) := rfl

theorem execInit_false (s : State) : execInit false s = .next { s with status := 1 } := rfl

/-! ### `APPEND` -/

theorem execAppend_empty (cv : Bool) (s : State) : execAppend cv [] s = .next (returnStatus .success s) := rfl

theorem execAppend_null {pay : List Byte} (s : State) (h : pay ≠ []) :
    execAppend false pay s = .next (errorEntry false .nullPointer s) := by
  simp [execAppend, h]

theorem execAppend_uninitialised {pay : List Byte} {s : State} (h : pay ≠ []) (hi : s.initialised = false) :
    execAppend true pay s = .refused .uninitialisedContext := by
  simp [execAppend, h, hi]

theorem execAppend_flagged {pay : List Byte} {s : State} (h : pay ≠ []) (hi : s.initialised = true)
    (hf : s.ctx.computed = true ∨ s.ctx.corrupted = true) :
    execAppend true pay s = .next (errorEntry true .stateError s) := by
  rcases hf with hf | hf <;> simp [execAppend, h, hi, hf]

/-- On an accepting context `APPEND` is its byte loop. -/
theorem execAppend_accepting {s : State} (h : s.Accepts) (pay : List Byte) :
    execAppend true pay s = finishAppend s (absorbAll pay s.ctx) := by
  obtain ⟨hi, hc, hx⟩ := h
  cases pay with
  | nil => rfl
  | cons v vs => simp [execAppend, hi, hc, hx]

/-- Everything `APPEND` can do when it answers. -/
theorem execAppend_next {cv : Bool} {pay : List Byte} {s t : State} (h : execAppend cv pay s = .next t) :
    (pay = [] ∧ t = returnStatus .success s) ∨
    (pay ≠ [] ∧ cv = false ∧ t = errorEntry false .nullPointer s) ∨
    (pay ≠ [] ∧ cv = true ∧ s.initialised = true ∧ (s.ctx.computed = true ∨ s.ctx.corrupted = true) ∧
      t = errorEntry true .stateError s) ∨
    (pay ≠ [] ∧ cv = true ∧ s.Accepts ∧ ∃ c, absorbAll pay s.ctx = .ok (c, .success) ∧
      t = returnStatus .success { s with ctx := c }) ∨
    (pay ≠ [] ∧ cv = true ∧ s.Accepts ∧ ∃ c, absorbAll pay s.ctx = .ok (c, .inputTooLong) ∧
      t = errorEntry true .inputTooLong { s with ctx := c }) := by
  by_cases hp : pay = []
  · subst hp
    exact .inl ⟨rfl, (Host.Outcome.next.inj h).symm⟩
  cases cv with
  | false =>
    rw [execAppend_null s hp] at h
    exact .inr (.inl ⟨hp, rfl, (Host.Outcome.next.inj h).symm⟩)
  | true =>
    rcases Bool.eq_false_or_eq_true s.initialised with hi | hi
    rotate_left
    · rw [execAppend_uninitialised hp hi] at h
      exact absurd h (by simp)
    · by_cases hf : s.ctx.computed = true ∨ s.ctx.corrupted = true
      · rw [execAppend_flagged hp hi hf] at h
        exact .inr (.inr (.inl ⟨hp, rfl, hi, hf, (Host.Outcome.next.inj h).symm⟩))
      · have ha : s.Accepts := by
          refine ⟨hi, ?_, ?_⟩
          · cases hc : s.ctx.computed <;> simp_all
          · cases hc : s.ctx.corrupted <;> simp_all
        rw [execAppend_accepting ha] at h
        cases hl : absorbAll pay s.ctx with
        | error f =>
          rw [hl] at h
          exact absurd h (by simp [finishAppend])
        | ok r =>
          obtain ⟨c, st⟩ := r
          rw [hl] at h
          rcases absorbAll_status pay _ _ _ hl with rfl | rfl
          · exact .inr (.inr (.inr (.inl ⟨hp, rfl, ha, c, rfl, (Host.Outcome.next.inj h).symm⟩)))
          · exact .inr (.inr (.inr (.inr ⟨hp, rfl, ha, c, rfl, (Host.Outcome.next.inj h).symm⟩)))

/-! ### The fields under the byte loop -/

section
variable {pay : List Byte} {c c' : Context} {st : Status} (h : absorbAll pay c = .ok (c', st))
include h

theorem absorbAll_computed : c'.computed = c.computed :=
  absorbAll_keeps (P := fun x => x.computed = c.computed)
    (fun v x x' hx _ ha => by rw [absorb_eq] at ha; rw [storeFlush_computed ha]; exact hx) pay c _ rfl h

theorem absorbAll_corrupted : c'.corrupted = c.corrupted :=
  absorbAll_keeps (P := fun x => x.corrupted = c.corrupted)
    (fun v x x' hx _ ha => by rw [absorb_eq] at ha; rw [storeFlush_corrupted ha]; exact hx) pay c _ rfl h

theorem absorbAll_wf (hw : Memory.wf 64 c.buf = true) : Memory.wf 64 c'.buf = true :=
  absorbAll_keeps (P := fun x => Memory.wf 64 x.buf = true)
    (fun v x x' hx _ ha => by rw [absorb_eq] at ha; exact storeFlush_wf ha hx) pay c _ hw h

/-- The loop keeps the invariant of an initialised Context. -/
theorem absorbAll_inv (hi : c.Inv) : c'.Inv :=
  absorbAll_keeps (P := Context.Inv)
    (fun v x x' hx ho ha => by
      rw [absorb_eq] at ha
      refine ⟨?_, ?_⟩
      · rw [storeFlush_cursor ha]
        exact Nat.mod_lt _ (by decide)
      · rw [storeFlush_bitLength ha]
        have := count_succ ho
        have hm := hx.2
        simp only
        omega) pay c _ hi h

end

/-! ### `FINISH` -/

theorem execFinish_null (ov : Bool) (s : State) :
    execFinish false ov s = .next (errorEntry false .nullPointer s) := by
  simp [execFinish]

theorem execFinish_uninitialised (ov : Bool) {s : State} (h : s.initialised = false) :
    execFinish true ov s = .refused .uninitialisedContext := by
  simp [execFinish, h]

theorem execFinish_noOutput {s : State} (h : s.initialised = true) :
    execFinish true false s = .next (errorEntry true .nullPointer s) := by
  simp [execFinish, h]

theorem execFinish_corrupted {s : State} (h : s.initialised = true) (hx : s.ctx.corrupted = true) :
    execFinish true true s = .next (errorEntry true .stateError s) := by
  simp [execFinish, h, hx]

theorem execFinish_again {s : State} (h : s.initialised = true) (hx : s.ctx.corrupted = false)
    (hc : s.ctx.computed = true) (hp : s.finishOnComputed = .reserialize) :
    execFinish true true s = .next (deliverDigest s) := by
  simp [execFinish, h, hx, hc, hp]

theorem execFinish_againRefused {s : State} (h : s.initialised = true) (hx : s.ctx.corrupted = false)
    (hc : s.ctx.computed = true) (hp : s.finishOnComputed = .stateError) :
    execFinish true true s = .next (errorEntry true .stateError s) := by
  simp [execFinish, h, hx, hc, hp]

/-- On an accepting context `FINISH` is its padding path and the serialiser. -/
theorem execFinish_accepting {s : State} (h : s.Accepts) :
    execFinish true true s =
      match finalize s.ctx with
      | .ok c => .next (deliverDigest { s with ctx := c })
      | .error f => .fault f := by
  obtain ⟨hi, hc, hx⟩ := h
  cases hz : finalize s.ctx <;> simp [execFinish, hi, hc, hx, hz]

/-- Everything `FINISH` can do when it answers. -/
theorem execFinish_next {cv ov : Bool} {s t : State} (h : execFinish cv ov s = .next t) :
    (cv = false ∧ t = errorEntry false .nullPointer s) ∨
    (cv = true ∧ ov = false ∧ s.initialised = true ∧ t = errorEntry true .nullPointer s) ∨
    (cv = true ∧ ov = true ∧ s.initialised = true ∧ s.ctx.corrupted = true ∧ t = errorEntry true .stateError s) ∨
    (cv = true ∧ ov = true ∧ s.initialised = true ∧ s.ctx.corrupted = false ∧ s.ctx.computed = true ∧
      s.finishOnComputed = .reserialize ∧ t = deliverDigest s) ∨
    (cv = true ∧ ov = true ∧ s.initialised = true ∧ s.ctx.corrupted = false ∧ s.ctx.computed = true ∧
      s.finishOnComputed = .stateError ∧ t = errorEntry true .stateError s) ∨
    (cv = true ∧ ov = true ∧ s.Accepts ∧ ∃ c, finalize s.ctx = .ok c ∧ t = deliverDigest { s with ctx := c }) := by
  cases cv with
  | false =>
    rw [execFinish_null] at h
    exact .inl ⟨rfl, (Host.Outcome.next.inj h).symm⟩
  | true =>
    rcases Bool.eq_false_or_eq_true s.initialised with hi | hi
    rotate_left
    · rw [execFinish_uninitialised ov hi] at h
      exact absurd h (by simp)
    cases ov with
    | false =>
      rw [execFinish_noOutput hi] at h
      exact .inr (.inl ⟨rfl, rfl, hi, (Host.Outcome.next.inj h).symm⟩)
    | true =>
      rcases Bool.eq_false_or_eq_true s.ctx.corrupted with hx | hx
      · rw [execFinish_corrupted hi hx] at h
        exact .inr (.inr (.inl ⟨rfl, rfl, hi, hx, (Host.Outcome.next.inj h).symm⟩))
      rcases Bool.eq_false_or_eq_true s.ctx.computed with hc | hc
      · cases hp : s.finishOnComputed with
        | reserialize =>
          rw [execFinish_again hi hx hc hp] at h
          exact .inr (.inr (.inr (.inl ⟨rfl, rfl, hi, hx, hc, rfl, (Host.Outcome.next.inj h).symm⟩)))
        | stateError =>
          rw [execFinish_againRefused hi hx hc hp] at h
          exact .inr (.inr (.inr (.inr (.inl ⟨rfl, rfl, hi, hx, hc, rfl, (Host.Outcome.next.inj h).symm⟩))))
      · rw [execFinish_accepting ⟨hi, hc, hx⟩] at h
        cases hz : finalize s.ctx with
        | error f => rw [hz] at h; exact absurd h (by simp)
        | ok c =>
          rw [hz] at h
          exact .inr (.inr (.inr (.inr (.inr ⟨rfl, rfl, ⟨hi, hc, hx⟩, c, rfl, (Host.Outcome.next.inj h).symm⟩))))

/-! ### The padding engine -/

/-- A property of the Context that one stored byte keeps, the zero fill keeps. -/
theorem zeroFill_keeps {P : Context → Prop} (hP : ∀ v c c', P c → storeFlush v c = .ok c' → P c') (n : Nat) :
    ∀ c c', P c → zeroFill n c = .ok c' → P c' := by
  induction n with
  | zero =>
    intro c c' hc h
    rw [← Except.ok.inj h]
    exact hc
  | succ n ih =>
    intro c c' hc h
    simp only [zeroFill] at h
    split at h
    · rw [← Except.ok.inj h]
      exact hc
    · cases hs : storeFlush 0x00 c with
      | error f => rw [hs] at h; exact absurd h (by simp [Except.bind])
      | ok c1 =>
        rw [hs] at h
        exact ih c1 c' (hP _ _ _ hc hs) h

/-- A property of the Context that one stored byte keeps, the padding engine keeps. -/
theorem padBlock_keeps {P : Context → Prop} (hP : ∀ v c c', P c → storeFlush v c = .ok c' → P c') {c c' : Context}
    (hc : P c) (h : padBlock c = .ok c') : P c' := by
  unfold padBlock at h
  cases hs : storeFlush Config.padMark c with
  | error f => rw [hs] at h; exact absurd h (by simp [Except.bind])
  | ok c1 =>
    rw [hs] at h
    exact zeroFill_keeps hP _ c1 c' (hP _ _ _ hc hs) h

/-- Everything the padding path can do: the engine answers, and the block with its length is compressed and wiped. -/
theorem finalize_ok {c c' : Context} :
    finalize c = .ok c' ↔
      ∃ c1 blk, padBlock c = .ok c1 ∧ (insertLength c1).buf.readBytes 0 64 = some blk ∧
        c' = cleanUp { insertLength c1 with hash := compress c1.hash blk, blockIndex := 0 } := by
  unfold finalize
  cases hp : padBlock c with
  | error f => simp [Except.bind]
  | ok c1 =>
    simp only [Except.bind, Except.ok.injEq, ↓existsAndEq, true_and]
    cases hb : compressBlock (insertLength c1) with
    | error f =>
      simp only [Except.map, reduceCtorEq, false_iff, not_exists, not_and]
      intro blk hblk
      have := compressBlock_ok.2 ⟨blk, hblk, rfl⟩
      rw [hb] at this
      exact absurd this (by simp)
    | ok c2 =>
      obtain ⟨blk, hblk, rfl⟩ := compressBlock_ok.1 hb
      simp only [Except.map, Except.ok.injEq, hblk, Option.some.injEq]
      constructor
      · rintro rfl
        exact ⟨blk, rfl, rfl⟩
      · rintro ⟨b, rfl, rfl⟩
        rfl

end Sys2Proof.Machine
end

