-- ==== Sys2Proof/Laws/PerInstr.lean ====
section
/-! SUPPORT. Statements for every command, as syntax: one lemma per constructor. -/

namespace Sys2Proof.Laws.EncodesOp

/-- The operation code of a command (R88). -/
def opOf : Instr → BitVec 2
  | .init _ => 0
  | .append _ _ => 1
  | .finish _ _ => 2
  | .reserved _ _ => 3

/-- The frame of a command carries its operation code, and a well-formed command with a payload announces that payload's
length in `LEN` (R81 to R84, R88). -/
def Statement (i : Instr) : Prop :=
  hdrOp (encode i).1 = opOf i ∧
  (i.wf = true → hdrOp (encode i).1 = 1 → (hdrLen (encode i).1).toNat = (encode i).2.length)

theorem init (cv : Bool) : Statement (.init cv) := by simp [Statement, encode, opOf]

theorem append (cv : Bool) (pay : List Byte) : Statement (.append cv pay) := by
  simp [Statement, encode, opOf, Instr.wf]

theorem finish (cv ov : Bool) : Statement (.finish cv ov) := by simp [Statement, encode, opOf]

theorem reserved (rest : BitVec 30) (pay : List Byte) : Statement (.reserved rest pay) := by
  have h : hdrOp (encode (.reserved rest pay)).1 = 3 := by
    apply BitVec.eq_of_toNat_eq
    rw [hdrOp_toNat, encode, reservedHeader_toNat]
    simp
  simp [Statement, h, opOf]

end Sys2Proof.Laws.EncodesOp
end

