-- ==== Sys2Proof/Laws/Step.lean ====
section
/-! SUPPORT. What a step can do: nothing pending, one of the host's own moves, or one command. -/

namespace Sys2Proof.Machine

/-- Everything a step can do when it answers. -/
theorem step_next {s t : State} (h : step s = .next t) :
    (s.pending = [] ∧ t = s) ∨
    (∃ a v rest, s.pending = .writeOut a v :: rest ∧ a < 20 ∧ t = { s with out := s.out.write a v, pending := rest }) ∨
    (∃ rest, s.pending = .powerOn :: rest ∧ t = powerOn { s with pending := rest }) ∨
    (∃ hdr pay rest i, s.pending = .frame hdr pay :: rest ∧ decode hdr pay = .ok i ∧
      exec i (acceptFrame hdr rest s) = .next t) := by
  unfold step at h
  split at h
  · rename_i hp
    exact .inl ⟨hp, (Host.Outcome.next.inj h).symm⟩
  · rename_i a v rest hp
    obtain ⟨ha, rfl⟩ := hostWriteOut_next h
    exact .inr (.inl ⟨a, v, rest, hp, ha, rfl⟩)
  · rename_i rest hp
    exact .inr (.inr (.inl ⟨rest, hp, (Host.Outcome.next.inj h).symm⟩))
  · rename_i hdr pay rest hp
    split at h
    · exact absurd h (by simp)
    · rename_i i hd
      exact .inr (.inr (.inr ⟨hdr, pay, rest, i, hp, hd, h⟩))

@[simp] theorem withFetchWord_pending (s : State) (nbits w : Nat) :
    (s.withFetchWord nbits w).pending = .frame (frameHdr nbits w) (framePay nbits w) :: s.pending := rfl

end Sys2Proof.Machine
end

