-- ==== Sys2Proof/Tests/Slice0.lean ====
section
/-! SUPPORT. Tests. Expected values come from the encodings of 30_encoding.md and the vectors of 95_test_vectors.md; then one
witness per obligation that has hypotheses, `test_witness_<obligation>`. -/

namespace Sys2Proof.Tests

open Sys2Proof Sys2Proof.Machine

/-! ### Small states -/

/-- The state an outcome leaves. -/
def nextOf : Host.Outcome State Fault Refusal → Option State
  | .next t => some t
  | _ => none

/-- One fact about the state an outcome leaves; false of a stop. -/
def leaves (o : Host.Outcome State Fault Refusal) (p : State → Bool) : Bool := (nextOf o).any p

/-- The initial constants, a zero buffer, and the counter, cursor and flags given (V-A7, V-F17, V-F18). -/
def handSet (len : BitVec 64) (i : BitVec 7) (computed corrupted : Bool) : State :=
  { State.reset with
    ctx :=
      { hash := initialHash, bitLength := len, buf := zeroBuf [], blockIndex := i, computed := computed,
        corrupted := corrupted }
    initialised := true
    status := 0 }

def fresh : State := handSet 0 0 false false
def done : State := handSet 24 0 true false
def broken : State := handSet 24 3 false true
def full : State := handSet 0xFFFFFFFFFFFFFFF8 63 false false
def abc : List Byte := [0x61, 0x62, 0x63]

/-- The host presents one frame. -/
def presents (s : State) (hdr : Word) (pay : List Byte) : State := { s with pending := [.frame hdr pay] }

/-! ### Well-formedness -/

theorem test_wf_accepts_longest : (Instr.append true (List.replicate (2 ^ 28 - 1) 0)).wf = true := by
  rw [Instr.wf, List.length_replicate]; decide

theorem test_wf_refuses_too_long : (Instr.append true (List.replicate (2 ^ 28) 0)).wf = false := by
  rw [Instr.wf, List.length_replicate]; decide

/-! ### Decoding: words written out from R82 to R84 and R89, bit 31 first -/

theorem test_decode_init : decode 0b00000000000000000000000000000100 [] = .ok (.init true) := rfl

theorem test_decode_init_null : decode 0b00000000000000000000000000000000 [] = .ok (.init false) := rfl

theorem test_decode_append : decode 0b00000000000000000000000000110101 abc = .ok (.append true abc) := rfl

theorem test_decode_append_null : decode 0b00000000000000000000000000010001 [0x64] = .ok (.append false [0x64]) := rfl

theorem test_decode_finish : decode 0b00000000000000000000000000001110 [] = .ok (.finish true true) := rfl

theorem test_decode_finish_no_out : decode 0b00000000000000000000000000000110 [] = .ok (.finish true false) := rfl

theorem test_decode_finish_no_ctx : decode 0b00000000000000000000000000001010 [] = .ok (.finish false true) := rfl

theorem test_decode_reserved : decode 0b00000000000000000000000000000011 [] = .ok (.reserved 0 []) := rfl

/-- R89 (b), (c), (d): each must-be-zero field, and payloads too short and too long. -/
theorem test_decode_rejects :
    decode 0b00000000000000000000000000010100 [] = .error .reservedLen ∧
    decode 0b10000000000000000000000000000110 [] = .error .reservedLen ∧
    decode 0b00000000000000000000000000001100 [] = .error .reservedOv ∧
    decode 0b00000000000000000000000000011101 [0x64] = .error .reservedOv ∧
    decode 0b00000000000000000000000000010101 [] = .error .payloadLength ∧
    decode 0b00000000000000000000000000010101 [0x64, 0x64] = .error .payloadLength :=
  ⟨rfl, rfl, rfl, rfl, rfl, rfl⟩

theorem test_encode :
    encode (.init true) = (0x00000004, []) ∧ encode (.append true abc) = (0x00000035, abc) ∧
    encode (.finish true true) = (0x0000000E, []) ∧ encode (.reserved 0 []) = (0x00000003, []) := by decide

theorem test_table_words :
    decodeTableWord 32 0 = some (.init false) ∧ decodeTableWord 32 1 = some (.append false []) ∧
    decodeTableWord 32 2 = some (.finish false false) ∧ decodeTableWord 32 3 = some (.reserved 0 []) := by decide

/-- The first frame after reset runs (L7), and the reserved one is refused by name. -/
theorem test_first_frame_after_reset :
    leaves (step (State.reset.withFetchWord 32 4)) (fun t => t.initialised && t.hdr == 4 && t.pending.isEmpty) = true ∧
    leaves (step (State.reset.withFetchWord 32 1)) (fun t => t.status == 0) = true ∧
    leaves (step (State.reset.withFetchWord 32 2)) (fun t => t.status == 1) = true ∧
    step (State.reset.withFetchWord 32 3) = .refused .reservedOp :=
  ⟨by decide +kernel, by decide +kernel, by decide +kernel, rfl⟩

/-- The lines of R90. -/
theorem test_text :
    (Instr.init false).text = some "init null" ∧ (Instr.append true abc).text = some "append ctx, 61 62 63" ∧
    (Instr.finish true false).text = some "finish ctx, null" := by decide +kernel

/-! ### Operators and the transform -/

/-- V-P3, V-P4, V-P5, V-P10, V-P11, V-P12, V-P13. -/
theorem test_primitives :
    rotl 5 0x67452301 = 0xE8A4602C ∧ rotl 5 0xF8000000 = 0x0000001F ∧ rotl 30 0xEFCDAB89 = 0x7BF36AE2 ∧
    choose 0xF0F0F0F0 0xFF00FF00 0x0F0F0F0F = 0xFF0FFF0F ∧ parity 0xF0F0F0F0 0xFF00FF00 0x0F0F0F0F = 0x00FF00FF ∧
    majority 0xF0F0F0F0 0xFF00FF00 0x0F0F0F0F = 0xFF00FF00 ∧ add32 0xEFCDAB89 0x5738D5E1 = 0x4706816A := by decide

/-- V-C6: the bytes 00 to 3f from the initial constants. -/
theorem test_compress_counting_bytes :
    compress initialHash ((List.range 64).map (BitVec.ofNat 8)) =
      ⟨0xB9AC757B, 0xBC297925, 0x2E227274, 0x06872F94, 0xCBEA56A1⟩ := by decide +kernel

/-- The layout of `FLAGS` (R35): bit 0 `computed`, bit 1 `corrupted`. -/
theorem test_flags : flagsOf done.ctx = 0b01 ∧ flagsOf broken.ctx = 0b10 ∧ flagsOf fresh.ctx = 0 := by decide

/-! ### Commands -/

/-- V-I1, from power-on. -/
theorem test_init_from_power_on :
    leaves (exec (.init true) State.reset) (fun t =>
      t.ctx.hash == ⟨0x67452301, 0xEFCDAB89, 0x98BADCFE, 0x10325476, 0xC3D2E1F0⟩ && t.ctx.bitLength == 0 &&
      t.ctx.blockIndex == 0 && t.ctx.buf.readBytes 0 64 == some (List.replicate 64 0) && t.status == 0 &&
      t.lifecycle == .fresh) = true := by decide +kernel

/-- V-I2: still `Uninitialised`. -/
theorem test_init_null :
    leaves (exec (.init false) State.reset) (fun t => t.status == 1 && t.lifecycle == .uninitialised) = true := by
  decide +kernel

/-- V-A9: the first byte is absorbed, the second is refused. -/
theorem test_append_overflow :
    leaves (exec (.append true [0x11, 0x22]) (handSet 0xFFFFFFFFFFFFFFF0 62 false false)) (fun t =>
      t.status == 2 && t.ctx.buf.readBytes 62 2 == some [0x11, 0x00] && t.ctx.bitLength == 0xFFFFFFFFFFFFFFF8 &&
      t.ctx.blockIndex == 63 && t.ctx.corrupted) = true := by decide +kernel

/-- V-A5: 64 bytes 61. -/
theorem test_append_full_block :
    leaves (exec (.append true (List.replicate 64 0x61)) fresh) (fun t =>
      t.status == 0 && t.ctx.hash == ⟨0xDA4968EB, 0x2E377C1F, 0x884E8F52, 0x83524BEB, 0xE74EBDBD⟩ &&
      t.ctx.bitLength == 0x200 && t.ctx.blockIndex == 0 &&
      t.ctx.buf.readBytes 0 64 == some (List.replicate 64 0x61)) = true := by decide +kernel

/-- V-F17: two blocks, all eight length bytes. -/
theorem test_finish_two_blocks :
    leaves (exec (.finish true true) full) (fun t =>
      t.status == 0 && t.out.readBytes 0 20 == some
        [0x17, 0x05, 0x01, 0x17, 0x21, 0xfb, 0x78, 0x71, 0x64, 0x98, 0xbe, 0x2b, 0xfe, 0xc5, 0xb5, 0xad, 0x97, 0x90,
          0x04, 0x2c]) = true := by decide +kernel

/-- V-F18: one block, the high word of the length. -/
theorem test_finish_high_length_word :
    leaves (exec (.finish true true) (handSet 0x0000000100000000 0 false false)) (fun t =>
      t.status == 0 && t.ctx.computed && t.out.readBytes 0 20 == some
        [0xe1, 0xf4, 0x00, 0x73, 0x31, 0x64, 0xed, 0x16, 0x42, 0x43, 0x7f, 0xfc, 0xe1, 0x2e, 0xcd, 0x02, 0x4a, 0xc9,
          0x7e, 0xf2]) = true := by decide +kernel

/-- S2, the source's digest of "abc", as the digest function gives it. -/
theorem test_digest_abc :
    digest abc =
      [0xa9, 0x99, 0x3e, 0x36, 0x47, 0x06, 0x81, 0x6a, 0xba, 0x3e, 0x25, 0x71, 0x78, 0x50, 0xc2, 0x6c, 0x9c, 0xd0, 0xd8,
        0x9d] := by decide +kernel

/-! ### Witnesses: hypotheses that hold together -/

theorem fresh_inv : fresh.Inv := by decide +kernel
theorem fresh_accepts : fresh.Accepts := by decide +kernel
theorem done_inv : done.Inv := by decide +kernel
theorem broken_inv : broken.Inv := by decide +kernel
theorem full_inv : full.Inv := by decide +kernel
theorem reset_inv : State.reset.Inv := by decide +kernel

theorem test_witness_DecodeOfEncode : (Instr.append true abc).wf = true := by decide

theorem test_witness_EncodeOfDecode : decode 0x00000035 abc = .ok (.append true abc) := rfl

theorem test_witness_AppendFrames :
    ([] : List Byte).length < 2 ^ 28 ∧ (List.replicate (2 ^ 28 - 1) (0 : Byte)).length < 2 ^ 28 := by
  rw [List.length_replicate]; decide

/-- A reserved frame of each kind (a) to (d) at the head of the queue, and a frame that is not reserved. -/
theorem test_witness_ReservedFramesRefused :
    (presents fresh 0xFFFFFFFF []).pending = [.frame 0xFFFFFFFF []] ∧ ReservedFrame 0xFFFFFFFF [] ∧
    ReservedFrame 0x00000010 [] ∧ ReservedFrame 0x80000002 [] ∧ ReservedFrame 0x00000008 [] ∧
    ReservedFrame 0x00000009 [] ∧ ReservedFrame 0x00000015 [] ∧ ReservedFrame 0x00000005 [0x64] ∧
    ¬ ReservedFrame 0x00000035 abc ∧ ¬ ReservedFrame 0x0000000E [] := by
  simp only [ReservedFrame]
  exact ⟨rfl, by decide, by decide, by decide, by decide, by decide, by decide, by decide, by decide, by decide⟩

theorem test_witness_StepRunsDecodedCommand :
    (presents fresh 0x00000035 abc).pending = [.frame 0x00000035 abc] ∧
    decode 0x00000035 abc = .ok (.append true abc) := ⟨rfl, rfl⟩

theorem test_witness_CoreWaits : fresh.pending = [] := rfl

/-- Both clauses: the last byte of `OUT`, and the first address behind it. -/
theorem test_witness_HostOverwritesOut :
    leaves (step { fresh with pending := [.writeOut 19 0x5A] }) (fun t => t.out.read 19 == some 0x5A) = true ∧
    step { fresh with pending := [.writeOut 20 0x5A] } = .fault .outAddress := ⟨by decide +kernel, rfl⟩

theorem test_witness_PowerOnUninitialises : ({ fresh with pending := [.powerOn] } : State).pending = .powerOn :: [] := rfl

/-- Both clauses: a power-on on an initialised context, and the first `INIT` after reset. -/
theorem test_witness_InitialisedFromInitToPowerOn :
    leaves (step { fresh with pending := [.powerOn] }) (fun t => fresh.initialised && !t.initialised) = true ∧
    leaves (step (presents State.reset 0x00000004 [])) (fun t => !State.reset.initialised && t.initialised) = true :=
  ⟨by decide +kernel, by decide +kernel⟩

theorem test_witness_UninitialisedRefused : State.reset.initialised = false ∧ abc ≠ [] := ⟨rfl, by decide⟩

theorem test_witness_InitTwiceIsOnce :
    broken.Inv ∧ exec (.init true) broken = .next (returnStatus .success (recover broken)) := ⟨broken_inv, rfl⟩

/-- Two states with different Contexts. -/
theorem test_witness_InitHidesHistory :
    broken.Inv ∧ full.Inv ∧ broken.finishOnComputed = full.finishOnComputed ∧ broken.out = full.out ∧
    broken.ctx ≠ full.ctx := ⟨broken_inv, full_inv, rfl, rfl, fun h => by
      have := congrArg Context.corrupted h
      exact absurd this (by decide)⟩

theorem test_witness_AppendNullContext : abc ≠ [] := by decide

/-- Both flags, one at a time and together. -/
theorem test_witness_AppendStateError :
    abc ≠ [] ∧ done.initialised = true ∧ done.ctx.computed = true ∧ done.ctx.corrupted = false ∧
    broken.initialised = true ∧ broken.ctx.computed = false ∧ broken.ctx.corrupted = true ∧
    (handSet 24 0 true true).ctx.computed = true ∧ (handSet 24 0 true true).ctx.corrupted = true := by decide

/-- The last byte for which the counter has room. -/
theorem test_witness_AppendSucceeds :
    (handSet 0xFFFFFFFFFFFFFFF0 62 false false).Inv ∧ (handSet 0xFFFFFFFFFFFFFFF0 62 false false).Accepts ∧
    (handSet 0xFFFFFFFFFFFFFFF0 62 false false).ctx.bitLength.toNat + 8 * [(0x11 : Byte)].length ≤ 2 ^ 64 - 1 := by
  decide +kernel

theorem test_witness_AppendByteInsideBlock :
    (handSet 0xFFFFFFFFFFFFFFF0 62 false false).Accepts ∧
    (handSet 0xFFFFFFFFFFFFFFF0 62 false false).ctx.blockIndex.toNat < 63 ∧
    (handSet 0xFFFFFFFFFFFFFFF0 62 false false).ctx.bitLength.toNat + 8 ≤ 2 ^ 64 - 1 := by decide +kernel

theorem test_witness_AppendByteFillsBlock :
    (handSet 504 63 false false).Accepts ∧ (handSet 504 63 false false).ctx.blockIndex = 63 ∧
    (handSet 504 63 false false).ctx.bitLength.toNat + 8 ≤ 2 ^ 64 - 1 ∧
    ((handSet 504 63 false false).ctx.buf.write 63 0x61).readBytes 0 64 =
      some (List.replicate 63 0 ++ [0x61]) := by decide +kernel

/-- V-A7 and V-A9: the failing byte first, and second. -/
theorem test_witness_AppendOverflow :
    full.Inv ∧ full.Accepts ∧
    full.ctx.bitLength.toNat + 8 * ([] : List Byte).length ≤ 2 ^ 64 - 1 ∧
    full.ctx.bitLength.toNat + 8 * ([] : List Byte).length + 8 > 2 ^ 64 - 1 ∧
    (handSet 0xFFFFFFFFFFFFFFF0 62 false false).ctx.bitLength.toNat + 8 * [(0x11 : Byte)].length ≤ 2 ^ 64 - 1 ∧
    (handSet 0xFFFFFFFFFFFFFFF0 62 false false).ctx.bitLength.toNat + 8 * [(0x11 : Byte)].length + 8 > 2 ^ 64 - 1 := by
  decide +kernel

/-- Pieces with an empty one among them; the one `APPEND` and the `FINISH` after it succeed. -/
theorem test_witness_ChunkingInvariance :
    fresh.Accepts ∧ [[0x61], [], [0x62, 0x63]].flatten = abc ∧
    leaves (exec (.append true abc) fresh) (fun u =>
      u.status == 0 && leaves (exec (.finish true true) u) (fun t => t.status == 0)) = true :=
  ⟨fresh_accepts, rfl, by decide +kernel⟩

/-- No stored byte at 3, and no full block. -/
theorem test_witness_AppendFrame :
    leaves (exec (.append true abc) fresh) (fun _ => true) = true ∧
    (∀ k, k < abc.length → (fresh.ctx.blockIndex.toNat + k) % 64 ≠ 3) ∧
    fresh.ctx.blockIndex.toNat + abc.length < 64 := by decide +kernel

/-- Each clause at the ends of its range. -/
theorem test_witness_ScheduleWords :
    (List.replicate 64 (0x61 : Byte)).length = 64 ∧ 0 < 16 ∧ 15 < 16 ∧ (16 ≤ 16 ∧ 16 < 80) ∧ (16 ≤ 79 ∧ 79 < 80) := by decide

theorem test_witness_ScheduleIsLinear :
    (List.replicate 64 (0x61 : Byte)).length = 64 ∧ (List.replicate 64 (0xFF : Byte)).length = 64 := by decide

theorem test_witness_RotationsAreCircular : (0 < 1 ∧ 1 < 32) ∧ (0 < 31 ∧ 31 < 32) := by decide

theorem test_witness_RoundFunctionsBitwise : 0 < 32 ∧ 31 < 32 := by decide

/-- The two ends of each stage. -/
theorem test_witness_SelectorTable :
    0 < 20 ∧ 19 < 20 ∧ (20 ≤ 20 ∧ 20 < 40) ∧ (20 ≤ 39 ∧ 39 < 40) ∧ (40 ≤ 40 ∧ 40 < 60) ∧ (40 ≤ 59 ∧ 59 < 60) ∧
    (60 ≤ 60 ∧ 60 < 80) ∧ (60 ≤ 79 ∧ 79 < 80) := by decide

theorem test_witness_RoundsInOrder :
    0 < (List.replicate 80 (0 : Word)).length ∧ 0 + 1 < (List.replicate 80 (0 : Word)).length ∧
    78 + 1 < (List.replicate 80 (0 : Word)).length := by decide

theorem test_witness_WorkingVariablesAreEarlierA :
    4 ≤ 4 ∧ 4 < (List.replicate 80 (0 : Word)).length ∧ 79 < (List.replicate 80 (0 : Word)).length := by decide

theorem test_witness_CompressIsRoundsPlusFeedForward : (List.replicate 64 (0x61 : Byte)).length = 64 := by decide

theorem test_witness_FinishNullReference : fresh.initialised = true := rfl

/-- With `computed` 0 and with `computed` 1. -/
theorem test_witness_FinishCorrupted :
    broken.initialised = true ∧ broken.ctx.corrupted = true ∧ (handSet 24 0 true true).initialised = true ∧
    (handSet 24 0 true true).ctx.corrupted = true := by decide

/-- Both policies. -/
theorem test_witness_FinishComputed :
    done.initialised = true ∧ done.ctx.corrupted = false ∧ done.ctx.computed = true ∧
    done.finishOnComputed = .reserialize ∧
    ({ done with finishOnComputed := .stateError } : State).finishOnComputed = .stateError := by decide

/-- The cursor at both ends of each row of R166. -/
theorem test_witness_PaddingBytesStored :
    Memory.full 64 fresh.ctx.buf = true ∧ fresh.ctx.blockIndex.toNat = 0 ∧
    (handSet 440 55 false false).ctx.blockIndex.toNat = 55 ∧ (handSet 448 56 false false).ctx.blockIndex.toNat = 56 ∧
    full.ctx.blockIndex.toNat = 63 ∧ Memory.full 64 full.ctx.buf = true := by decide +kernel

theorem test_witness_LengthFieldBytes : 0 < 8 ∧ 7 < 8 ∧ 55 < 56 ∧ 64 ≤ 64 := by decide

theorem test_witness_DigestByteOrder : 0 < 4 ∧ 3 < 4 ∧ 20 ≤ 20 := by decide

theorem test_witness_FinishSucceeds : (fresh.Inv ∧ fresh.Accepts) ∧ (full.Inv ∧ full.Accepts) := by decide +kernel

/-- A `FINISH` that answers, and one that fails. -/
theorem test_witness_FinishFrame :
    leaves (exec (.finish true true) done) (fun t => t.status == 0) = true ∧
    leaves (exec (.finish true false) done) (fun t => t.status == 1) = true := by decide +kernel

/-- Both branches. -/
theorem test_witness_OutWrittenOnlyBySuccessfulFinish :
    leaves (exec (.finish true true) done) (fun t => t.status == 0) = true ∧
    leaves (exec (.finish true true) broken) (fun t => t.status == 3) = true ∧
    leaves (exec (.append true abc) fresh) (fun t => t.status == 0) = true := by decide +kernel

/-- Each flag set and each flag cleared. -/
theorem test_witness_FlagWrites :
    leaves (exec (.finish true true) fresh) (fun t => !fresh.ctx.computed && t.ctx.computed) = true ∧
    leaves (exec (.init true) done) (fun t => done.ctx.computed && !t.ctx.computed) = true ∧
    leaves (exec (.init true) broken) (fun t => broken.ctx.corrupted && !t.ctx.corrupted) = true ∧
    leaves (exec (.finish true false) fresh) (fun t => !fresh.ctx.corrupted && t.ctx.corrupted) = true := by
  decide +kernel

theorem test_witness_CorruptedContextIsFrozen :
    leaves (exec (.append true abc) broken) (fun t => t.status == 3) = true ∧ broken.initialised = true ∧
    broken.ctx.corrupted = true ∧ Instr.append true abc ≠ .init true := by decide +kernel

/-- Each clause: `INIT`, an `APPEND`, and neither. -/
theorem test_witness_BitLengthCounts :
    leaves (exec (.init true) full) (fun t => t.ctx.bitLength == 0) = true ∧
    leaves (exec (.append true abc) fresh) (fun t => t.ctx.bitLength == 24) = true ∧
    leaves (exec (.finish true true) done) (fun t => t.ctx.bitLength == 24) = true := by decide +kernel

/-- An error with a valid reference and one with none. -/
theorem test_witness_ErrorsMarkTheContext :
    leaves (exec (.finish true false) fresh) (fun t => t.status == 1) = true ∧ ctxValid (.finish true false) = true ∧
    leaves (exec (.append false abc) fresh) (fun t => t.status == 1) = true ∧ ctxValid (.append false abc) = false := by
  decide +kernel

/-- Each command, and each status it can return. -/
theorem test_witness_StatusesOfCommands :
    leaves (exec (.init true) fresh) (fun t => t.status == 0) = true ∧
    leaves (exec (.init false) fresh) (fun t => t.status == 1) = true ∧
    leaves (exec (.append false abc) fresh) (fun t => t.status == 1) = true ∧
    leaves (exec (.append true abc) full) (fun t => t.status == 2) = true ∧
    leaves (exec (.append true abc) done) (fun t => t.status == 3) = true ∧
    leaves (exec (.finish false true) fresh) (fun t => t.status == 1) = true ∧
    leaves (exec (.finish true true) broken) (fun t => t.status == 3) = true ∧
    leaves (exec (.finish true true) { done with finishOnComputed := .stateError }) (fun t => t.status == 3) = true := by
  decide +kernel

theorem test_witness_FollowsLifecycleTable :
    (fresh.Inv ∧ done.Inv ∧ broken.Inv ∧ State.reset.Inv) ∧
    ∀ rest pay, Instr.append true abc ≠ .reserved rest pay :=
  ⟨⟨fresh_inv, done_inv, broken_inv, reset_inv⟩, fun _ _ h => by cases h⟩

theorem test_witness_InvariantKept :
    (presents fresh 0x00000035 abc).Inv ∧
    leaves (step (presents fresh 0x00000035 abc)) (fun t => t.ctx.blockIndex == 3) = true :=
  ⟨fresh_inv, by decide +kernel⟩

theorem test_witness_MessageInvariantKept :
    (presents fresh 0x00000035 abc).Tracks ∧
    leaves (step (presents fresh 0x00000035 abc)) (fun t => t.status == 0) = true :=
  ⟨fun _ => ⟨[], by decide, by decide, rfl, rfl⟩, by decide +kernel⟩

theorem test_witness_DigestOfMessage : State.reset.Inv ∧ [abc, [], abc].flatten.length ≤ 2 ^ 61 - 1 :=
  ⟨reset_inv, by decide⟩

theorem test_witness_HashPseudoCommand :
    hashCommands abc = [.init true, .append true abc, .finish true true] ∧ State.reset.Inv ∧
    abc.length ≤ 2 ^ 61 - 1 := ⟨rfl, reset_inv, by decide⟩

end Sys2Proof.Tests
end

section
/-! PROOFS. The step on a frame at the head of the queue (R15, R32, R65). -/

namespace Sys2Proof.Machine

/-- A step on a frame that decodes runs the command on the state that has accepted the frame. -/
theorem step_of_frame_decodes {s : State} {hdr : Word} {pay : List Byte} {rest : List HostMove} {i : Instr}
    (hp : s.pending = .frame hdr pay :: rest) (hd : decode hdr pay = .ok i) :
    step s = exec i (acceptFrame hdr rest s) := by
  simp only [step, hp, hd]

/-- Accepting a frame writes `HDR` and the queue, and nothing else. -/
theorem acceptFrame_eq (hdr : Word) (rest : List HostMove) (s : State) :
    acceptFrame hdr rest s = { s with hdr := hdr, pending := rest } := rfl

/-- Settles O9: the step's equation on a frame that decodes, with the accepted state written out. -/
theorem stepRunsDecodedCommand : Obligations.StepRunsDecodedCommand := by
  intro s hdr pay rest i hp hd
  rw [step_of_frame_decodes hp hd, acceptFrame_eq]

end Sys2Proof.Machine
end

section
/-! PROOFS. The state after a power-on (R36, R240, R9). -/

namespace Sys2Proof.Machine

@[simp] theorem reset_initialised : State.reset.initialised = false := rfl

/-- An uninitialised state is in the lifecycle state of that name, whatever its registers hold (R29). -/
theorem lifecycle_of_uninitialised {s : State} (h : s.initialised = false) : s.lifecycle = .uninitialised := by
  simp [State.lifecycle, h]

/-- Settles O14: the flag `initialised` is 0, and both byte spaces are in canonical form, which lists every address. -/
theorem resetIsUninitialised : Obligations.ResetIsUninitialised := by
  obtain ⟨hout, hbuf⟩ := reset_memory_wf
  exact ⟨lifecycle_of_uninitialised reset_initialised, rfl, rfl, fun _ ha => Memory.read_isSome_of_wf hbuf ha,
    fun _ ha => Memory.read_isSome_of_wf hout ha⟩

/-- Settles O54: the byte spaces are canonical, and the clause on an initialised Context asks nothing of this one. -/
theorem invariantAtReset : Obligations.InvariantAtReset := by
  obtain ⟨hout, hbuf⟩ := reset_memory_wf
  exact ⟨hout, hbuf, by simp⟩

/-- Settles O56: the reset state does not accept, since no `INIT` has run. -/
theorem messageInvariantAtReset : Obligations.MessageInvariantAtReset := by
  rintro ⟨hi, -⟩
  simp at hi

end Sys2Proof.Machine
end

section
/-! PROOFS. What a command can do to the whole state when it answers, said once for all commands; and what the byte loop
and the padding path do to the fields the invariants speak of. -/

namespace Sys2Proof.Machine

/-! ### The effects of the commands -/

/-- Every way a command can answer: the command, the state before it and the state after it. The error entry stands once
for all errors of a kind (R206). -/
inductive CommandEffect : Instr → State → State → Prop
  /-- `INIT` on a valid context (R100) -/
  | restart (s : State) : CommandEffect (.init true) s (returnStatus .success (recover s))
  /-- the empty `APPEND` (R116) -/
  | empty (cv : Bool) (s : State) : CommandEffect (.append cv []) s (returnStatus .success s)
  /-- an error with no context to mark (R206) -/
  | unmarked (i : Instr) (s : State) (hi : ctxValid i = false) :
      CommandEffect i s (errorEntry false .nullPointer s)
  /-- an error that does nothing but mark the context (R206) -/
  | marked (i : Instr) (s : State) (st : Status) (hst : st ≠ .success)
      (hi : (∃ pay, i = .append true pay) ∨ ∃ ov, i = .finish true ov) : CommandEffect i s (errorEntry true st s)
  /-- an `APPEND` that absorbs its whole payload (R110) -/
  | absorbed (pay : List Byte) (s : State) (c : Context) (ha : s.Accepts)
      (hl : absorbAll pay s.ctx = .ok (c, .success)) :
      CommandEffect (.append true pay) s (returnStatus .success { s with ctx := c })
  /-- an `APPEND` stopped by the length counter (R118) -/
  | overflowed (pay : List Byte) (s : State) (c : Context) (ha : s.Accepts)
      (hl : absorbAll pay s.ctx = .ok (c, .inputTooLong)) :
      CommandEffect (.append true pay) s (errorEntry true .inputTooLong { s with ctx := c })
  /-- a `FINISH` that writes the digest of a `Computed` context again (R162) -/
  | delivered (s : State) (hx : s.ctx.corrupted = false) (hc : s.ctx.computed = true) :
      CommandEffect (.finish true true) s (deliverDigest s)
  /-- a `FINISH` on an accepting context (R160) -/
  | finished (s : State) (c : Context) (ha : s.Accepts) (hf : finalize s.ctx = .ok c) :
      CommandEffect (.finish true true) s (deliverDigest { s with ctx := c })

theorem execInit_effect {cv : Bool} {s t : State} (h : execInit cv s = .next t) : CommandEffect (.init cv) s t := by
  cases cv with
  | true => exact Host.Outcome.next.inj h ▸ .restart s
  | false => exact Host.Outcome.next.inj h ▸ .unmarked _ s rfl

theorem execAppend_effect {cv : Bool} {pay : List Byte} {s t : State} (h : execAppend cv pay s = .next t) :
    CommandEffect (.append cv pay) s t := by
  obtain ⟨rfl, rfl⟩ | ⟨-, rfl, rfl⟩ | ⟨-, rfl, -, -, rfl⟩ | ⟨-, rfl, ha, c, hl, rfl⟩ | ⟨-, rfl, ha, c, hl, rfl⟩ :=
    execAppend_next h
  · exact .empty cv s
  · exact .unmarked _ s rfl
  · exact .marked _ s _ (by decide) (.inl ⟨pay, rfl⟩)
  · exact .absorbed pay s c ha hl
  · exact .overflowed pay s c ha hl

theorem execFinish_effect {cv ov : Bool} {s t : State} (h : execFinish cv ov s = .next t) :
    CommandEffect (.finish cv ov) s t := by
  obtain ⟨rfl, rfl⟩ | ⟨rfl, rfl, -, rfl⟩ | ⟨rfl, rfl, -, -, rfl⟩ | ⟨rfl, rfl, -, hx, hc, -, rfl⟩ |
    ⟨rfl, rfl, -, -, -, -, rfl⟩ | ⟨rfl, rfl, ha, c, hf, rfl⟩ := execFinish_next h
  · exact .unmarked _ s rfl
  · exact .marked _ s _ (by decide) (.inr ⟨_, rfl⟩)
  · exact .marked _ s _ (by decide) (.inr ⟨_, rfl⟩)
  · exact .delivered s hx hc
  · exact .marked _ s _ (by decide) (.inr ⟨_, rfl⟩)
  · exact .finished s c ha hf

/-- A command that answers has one of the effects. -/
theorem exec_effect {i : Instr} {s t : State} (h : exec i s = .next t) : CommandEffect i s t := by
  cases i with
  | init cv => exact execInit_effect h
  | append cv pay => exact execAppend_effect h
  | finish cv ov => exact execFinish_effect h
  | reserved rest pay => exact absurd h (by simp [exec, execReserved])

/-! ### The counter under the byte loop -/

/-- The byte loop adds 8 to the counter for each byte it absorbs, on natural numbers (R113, R114). -/
theorem absorbAll_bitLength (pay : List Byte) {c c' : Context} {st : Status} (h : absorbAll pay c = .ok (c', st)) :
    ∃ k, k ≤ pay.length ∧ c'.bitLength.toNat = c.bitLength.toNat + 8 * k := by
  induction pay generalizing c with
  | nil =>
    rw [absorbAll_nil] at h
    cases h
    exact ⟨0, Nat.zero_le _, rfl⟩
  | cons v vs ih =>
    rw [absorbAll_cons] at h
    split at h
    · cases h
      exact ⟨0, Nat.zero_le _, rfl⟩
    · rename_i ho
      cases hv : absorb v c with
      | error f => rw [hv] at h; cases h
      | ok c1 =>
        rw [hv] at h
        obtain ⟨k, hk, hlen⟩ := ih h
        rw [absorb_eq] at hv
        rw [storeFlush_bitLength hv, count_succ (by simpa using ho)] at hlen
        exact ⟨k + 1, Nat.succ_le_succ hk, by omega⟩

/-! ### The fields under the padding path -/

section
variable {c c' : Context}

theorem padBlock_bitLength (h : padBlock c = .ok c') : c'.bitLength = c.bitLength :=
  padBlock_keeps (P := fun x => x.bitLength = c.bitLength) (fun _ _ _ hx hs => (storeFlush_bitLength hs).trans hx) rfl h

theorem padBlock_corrupted (h : padBlock c = .ok c') : c'.corrupted = c.corrupted :=
  padBlock_keeps (P := fun x => x.corrupted = c.corrupted) (fun _ _ _ hx hs => (storeFlush_corrupted hs).trans hx) rfl h

theorem padBlock_wf (h : padBlock c = .ok c') (hw : Memory.wf 64 c.buf = true) : Memory.wf 64 c'.buf = true :=
  padBlock_keeps (P := fun x => Memory.wf 64 x.buf = true) (fun _ _ _ hx hs => storeFlush_wf hs hx) hw h

variable (h : finalize c = .ok c')
include h

theorem finalize_bitLength : c'.bitLength = c.bitLength := by
  obtain ⟨c1, blk, hp, -, rfl⟩ := finalize_ok.1 h
  simp [padBlock_bitLength hp]

theorem finalize_blockIndex : c'.blockIndex = 0 := by
  obtain ⟨c1, blk, -, -, rfl⟩ := finalize_ok.1 h
  simp

theorem finalize_computed : c'.computed = true := by
  obtain ⟨c1, blk, -, -, rfl⟩ := finalize_ok.1 h
  simp

theorem finalize_corrupted : c'.corrupted = c.corrupted := by
  obtain ⟨c1, blk, hp, -, rfl⟩ := finalize_ok.1 h
  simp [padBlock_corrupted hp]

theorem finalize_wf (hw : Memory.wf 64 c.buf = true) : Memory.wf 64 c'.buf = true := by
  obtain ⟨c1, blk, hp, -, rfl⟩ := finalize_ok.1 h
  rw [cleanUp_buf]
  exact zeroBuf_wf (insertLength_wf (padBlock_wf hp hw))

/-- The padding path leaves the cursor at 0 and does not touch the counter (R163, R168). -/
theorem finalize_inv (hi : c.Inv) : c'.Inv := by
  rw [Context.Inv, finalize_blockIndex h, finalize_bitLength h]
  exact ⟨by decide, hi.2⟩

end

end Sys2Proof.Machine
end

section
/-! PROOFS. The invariant of the byte spaces, the cursor and the counter (R22, R24, R50, R51). -/

namespace Sys2Proof.Machine

theorem initContext_inv (c : Context) : (initContext c).Inv := by
  simp [Context.Inv]

/-- Every command that answers keeps the invariant. -/
theorem exec_keeps_inv {i : Instr} {s t : State} (hs : s.Inv) (h : exec i s = .next t) : t.Inv := by
  have ⟨hout, hbuf, hctx⟩ := hs
  cases exec_effect h with
  | restart => exact ⟨hout, by simpa using zeroBuf_wf hbuf, fun _ => initContext_inv s.ctx⟩
  | empty | unmarked | marked => exact hs
  | absorbed _ _ _ ha hl | overflowed _ _ _ ha hl =>
    have hw := absorbAll_wf hl hbuf
    have hc := absorbAll_inv hl (hctx ha.1)
    exact ⟨hout, hw, fun _ => hc⟩
  | delivered => exact ⟨serialise_wf _ hout, hbuf, hctx⟩
  | finished _ _ ha hf => exact ⟨serialise_wf _ hout, finalize_wf hf hbuf, fun _ => finalize_inv hf (hctx ha.1)⟩

/-- Settles O53, by what a step can do: a host's move touches one byte of `OUT` or makes the Context uninitialised, and
every command keeps the invariant. -/
theorem invariantKept : Obligations.InvariantKept := by
  intro s t hs h
  have ⟨hout, hbuf, hctx⟩ := hs
  obtain ⟨-, rfl⟩ | ⟨a, v, rest, -, ha, rfl⟩ | ⟨rest, -, rfl⟩ | ⟨hdr, pay, rest, i, -, -, he⟩ := step_next h
  · exact hs
  · exact ⟨Memory.wf_write v hout ha, hbuf, hctx⟩
  · exact ⟨hout, Memory.wf_filled _ _, by simp⟩
  · exact exec_keeps_inv (s := acceptFrame hdr rest s) hs he

end Sys2Proof.Machine
end

section
/-! PROOFS. The message an accepting Context stands for (R28). -/

namespace Sys2Proof.Machine

/-! ### The fold over the blocks of a byte string -/

/-- The last of `n + 1` blocks is folded in last. -/
theorem hashBlocks_succ (n : Nat) (m : List Byte) (h : Hash) :
    hashBlocks (n + 1) m h = compress (hashBlocks n m h) ((m.drop (64 * n)).take 64) := by
  induction n generalizing m h with
  | zero => rfl
  | succ n ih =>
    rw [hashBlocks, ih, List.drop_drop, hashBlocks, show 64 + 64 * n = 64 * (n + 1) by omega]

/-- Bytes behind the first `n` blocks do not enter their fold. -/
theorem hashBlocks_append {n : Nat} {m : List Byte} (ys : List Byte) (h : Hash) (hn : 64 * n ≤ m.length) :
    hashBlocks n (m ++ ys) h = hashBlocks n m h := by
  induction n generalizing m h with
  | zero => rfl
  | succ n ih =>
    rw [hashBlocks, hashBlocks, List.drop_append_of_le_length (by omega), List.take_append_of_le_length (by omega),
      ih _ (by rw [List.length_drop]; omega)]

/-! ### One byte more -/

/-- A byte stored right behind the bytes read is the last byte of the longer read. -/
theorem Memory.readBytes_write_snoc {m : Memory} {a n : Nat} {bs : List Byte} (v : Byte)
    (h : m.readBytes a n = some bs) : (m.write (a + n) v).readBytes a (n + 1) = some (bs ++ [v]) := by
  obtain ⟨hlen, hget⟩ := (Memory.readBytes_eq_some _ _ _ _).1 h
  refine (Memory.readBytes_eq_some _ _ _ _).2 ⟨by simp [hlen], fun k hk => ?_⟩
  rcases Nat.lt_succ_iff_lt_or_eq.1 hk with hlt | rfl
  · rw [Memory.read_write_ne _ _ (by omega), hget k hlt, List.getElem?_append_left (by omega)]
  · rw [Memory.read_write_same, ← hlen, List.getElem?_concat_length]

/-- The Context that `INIT` leaves stands for the empty message. -/
theorem initContext_represents (c : Context) : (initContext c).Represents [] :=
  ⟨by simp, by simp, by simp [hashBlocks], by simp [Memory.readBytes]⟩

/-- Absorbing a byte appends it to the message the Context stands for (R28, R113, R115). -/
theorem absorb_represents {v : Byte} {c c' : Context} {m : List Byte} (hm : c.Represents m)
    (ho : lengthWouldOverflow c = false) (h : absorb v c = .ok c') : c'.Represents (m ++ [v]) := by
  obtain ⟨hlen, hcur, hhash, hbuf⟩ := hm
  rw [absorb_eq] at h
  have hread := Memory.readBytes_write_snoc v hbuf
  rw [Nat.zero_add, ← List.drop_append_of_le_length (by omega)] at hread
  have hfold := hashBlocks_append [v] initialHash (show 64 * (m.length / 64) ≤ m.length by omega)
  have hsnoc : (m ++ [v]).length = m.length + 1 := List.length_append
  refine ⟨?_, ?_, ?_⟩
  · rw [storeFlush_bitLength h, count_succ ho]
    omega
  · rw [storeFlush_cursor h]
    simp only
    omega
  rcases storeFlush_ok h with ⟨h63, rfl⟩ | ⟨h63, blk, hblk, rfl⟩ <;> simp only [hcur] at h63
  · have hdiv : (m ++ [v]).length / 64 = m.length / 64 := by omega
    have hmod : (m ++ [v]).length % 64 = m.length % 64 + 1 := by omega
    rw [hdiv, hmod, hfold]
    exact ⟨hhash, hcur ▸ hread⟩
  · have hdiv : (m ++ [v]).length / 64 = m.length / 64 + 1 := by omega
    have hmod : (m ++ [v]).length % 64 = 0 := by omega
    rw [h63, hblk, Option.some.injEq] at hread
    subst hread
    rw [hdiv, hmod, hashBlocks_succ, hfold, ← hhash, List.take_of_length_le (by rw [List.length_drop]; omega),
      List.drop_eq_nil_of_le (show (m ++ [v]).length ≤ 64 * (m.length / 64 + 1) by omega)]
    exact ⟨rfl, rfl⟩

/-- The byte loop keeps that the Context stands for a message. -/
theorem absorbAll_represents {pay : List Byte} {c c' : Context} {st : Status} (h : absorbAll pay c = .ok (c', st))
    (hm : ∃ m, c.Represents m) : ∃ m, c'.Represents m :=
  absorbAll_keeps (P := fun x => ∃ m, x.Represents m)
    (fun v _ _ ⟨m, hx⟩ ho hv => ⟨m ++ [v], absorb_represents hx ho hv⟩) pay c _ hm h

/-! ### The invariant -/

/-- Every command that answers keeps the message invariant: `INIT` starts the empty message, `APPEND` extends the
message, and what fails or finishes no longer accepts. -/
theorem exec_keeps_tracks {i : Instr} {s t : State} (hs : s.Tracks) (h : exec i s = .next t) : t.Tracks := by
  cases exec_effect h with
  | restart => exact fun _ => ⟨[], initContext_represents s.ctx⟩
  | empty | unmarked | delivered => exact hs
  | absorbed _ _ _ ha hl => exact fun _ => absorbAll_represents hl (hs ha)
  | marked | overflowed => exact fun ⟨_, _, hx⟩ => by simp at hx
  | finished _ _ _ hf => exact fun ⟨_, hc, _⟩ => by simp [finalize_computed hf] at hc

/-- Settles O55, by what a step can do: a host's write does not touch the Context, after a power-on the core does not
accept, and every command keeps the invariant. -/
theorem messageInvariantKept : Obligations.MessageInvariantKept := by
  intro s t hs h
  obtain ⟨-, rfl⟩ | ⟨a, v, rest, -, -, rfl⟩ | ⟨rest, -, rfl⟩ | ⟨hdr, pay, rest, i, -, -, he⟩ := step_next h
  · exact hs
  · exact hs
  · exact fun ⟨hi, _⟩ => by simp at hi
  · exact exec_keeps_tracks (s := acceptFrame hdr rest s) hs he

end Sys2Proof.Machine
end

section
/-! PROOFS. What the commands do to the flags and to the counter (R22, R25 to R27). -/

namespace Sys2Proof.Machine

/-- Settles O46, by the effects of the commands: the byte loop keeps both flags, the padding path keeps `corrupted`. -/
theorem flagWrites : Obligations.FlagWrites := by
  intro i s t h _
  cases exec_effect h with
  | restart => simp
  | empty | unmarked => simp +contextual
  | delivered _ hx hc => simp [hx, hc]
  | marked _ _ st hst hi =>
    have hst' : statusCode st ≠ 0 := fun e => hst (statusCode_injective e)
    have hcv : ctxValid i = true := by obtain ⟨_, rfl⟩ | ⟨_, rfl⟩ := hi <;> rfl
    refine ⟨?_, ?_, fun _ _ => ⟨hst', hcv, hi⟩, ?_, ?_⟩ <;> simp +contextual
  | absorbed _ _ _ _ hl => simp [absorbAll_computed hl, absorbAll_corrupted hl]
  | overflowed _ _ _ ha hl =>
    obtain ⟨-, hc, -⟩ := ha
    simp [absorbAll_computed hl, hc, ctxValid]
  | finished _ _ ha hf => simpa [finalize_computed hf, finalize_corrupted hf] using fun _ => ha

/-- Settles O47: with `corrupted` set, every effect but that of `INIT` keeps the Context or marks what is marked. -/
theorem corruptedContextIsFrozen : Obligations.CorruptedContextIsFrozen := by
  intro i s t h _ hx hi
  cases exec_effect h with
  | restart => exact absurd rfl hi
  | empty | unmarked | delivered => rfl
  | marked => exact setCorrupted_of_corrupted s.ctx hx
  | absorbed _ _ _ ha | overflowed _ _ _ ha | finished _ _ ha =>
    obtain ⟨-, -, hx'⟩ := ha
    simp [hx'] at hx

/-- Settles O48: only `INIT` and the byte loop write the counter, and the loop adds 8 for each byte it absorbs. -/
theorem bitLengthCounts : Obligations.BitLengthCounts := by
  intro i s t h
  cases exec_effect h with
  | restart => simp
  | empty => simp
  | unmarked _ _ hi | marked _ _ _ _ hi =>
    exact ⟨by rintro rfl; simp [ctxValid] at hi, fun _ _ _ => ⟨0, Nat.zero_le _, rfl⟩, fun _ => rfl⟩
  | delivered => simp
  | absorbed _ _ _ _ hl => simpa using absorbAll_bitLength _ hl
  | overflowed _ _ _ _ hl => simpa using absorbAll_bitLength _ hl
  | finished _ _ _ hf => simpa using finalize_bitLength hf

end Sys2Proof.Machine
end

section
/-! PROOFS. The commands do not read `HDR`, `STATUS` or the queue (R32, R65). -/

namespace Sys2Proof.Machine

/-- The same test on both sides: what is left is to compare branch with branch. -/
theorem sameOutcome_ite {p : Prop} [Decidable p] {a b a' b' : Host.Outcome State Fault Refusal}
    (h : SameOutcome a b) (h' : SameOutcome a' b') : SameOutcome (if p then a else a') (if p then b else b') := by
  split <;> assumption

section
variable (s : State) (hdr : Word) (st : BitVec 2) (moves : List HostMove)

theorem finishAppend_sameOutcome (r : Except Fault (Context × Status)) :
    SameOutcome (finishAppend s r) (finishAppend { s with hdr := hdr, status := st, pending := moves } r) := by
  cases r with
  | error f => rfl
  | ok r =>
    obtain ⟨c, st'⟩ := r
    cases st' <;> exact ⟨rfl, rfl, rfl, rfl⟩

theorem errorEntry_sameOutcome (cv : Bool) (code : Status) :
    SameOutcome (.next (errorEntry cv code s))
      (.next (errorEntry cv code { s with hdr := hdr, status := st, pending := moves })) := by
  cases cv <;> exact ⟨rfl, rfl, rfl, rfl⟩

theorem execInit_sameOutcome (cv : Bool) :
    SameOutcome (execInit cv s) (execInit cv { s with hdr := hdr, status := st, pending := moves }) :=
  sameOutcome_ite ⟨rfl, rfl, rfl, rfl⟩ (errorEntry_sameOutcome s hdr st moves _ _)

theorem execAppend_sameOutcome (cv : Bool) (pay : List Byte) :
    SameOutcome (execAppend cv pay s) (execAppend cv pay { s with hdr := hdr, status := st, pending := moves }) := by
  have herr := errorEntry_sameOutcome s hdr st moves
  exact sameOutcome_ite ⟨rfl, rfl, rfl, rfl⟩ <| sameOutcome_ite (herr _ _) <| sameOutcome_ite rfl <|
    sameOutcome_ite (herr _ _) (finishAppend_sameOutcome s hdr st moves _)

theorem execFinish_sameOutcome (cv ov : Bool) :
    SameOutcome (execFinish cv ov s) (execFinish cv ov { s with hdr := hdr, status := st, pending := moves }) := by
  have herr := errorEntry_sameOutcome s hdr st moves
  refine sameOutcome_ite rfl <| sameOutcome_ite (herr _ _) <| sameOutcome_ite (herr _ _) <| sameOutcome_ite ?_ ?_
  · cases s.finishOnComputed with
    | stateError => exact herr _ _
    | reserialize => exact ⟨rfl, rfl, rfl, rfl⟩
  · cases finalize s.ctx with
    | ok c => exact ⟨rfl, rfl, rfl, rfl⟩
    | error f => rfl

end

/-- Settles O51: on both states a command makes the same tests, and comparable branches are the same but for `HDR` and
the queue, since each writes `STATUS`. -/
theorem commandsIgnoreInterfaceRegisters : Obligations.CommandsIgnoreInterfaceRegisters := by
  intro i s hdr st moves
  cases i with
  | init cv => exact execInit_sameOutcome s hdr st moves cv
  | append cv pay => exact execAppend_sameOutcome s hdr st moves cv pay
  | finish cv ov => exact execFinish_sameOutcome s hdr st moves cv ov
  | reserved rest pay => rfl

end Sys2Proof.Machine
end

section
/-! PROOFS. The length field in `BUF` and the digest in `OUT` (R51, R55 to R57, R61): each is one block of big-endian
bytes, and no command writes `OUT` but a `FINISH` that succeeds. -/

namespace Sys2Proof.Machine

/-! ### Big-endian bytes -/

/-- Byte `j` of the `n`-byte form, counted from the most significant. -/
theorem beBytes_getElem? {n j : Nat} (v : Nat) (hj : j < n) :
    (beBytes n v)[j]? = some (BitVec.ofNat 8 (v / 256 ^ (n - 1 - j))) := by
  induction n generalizing j with
  | zero => omega
  | succ n ih =>
    cases j with
    | zero => simp [beBytes]
    | succ j => rw [beBytes, List.getElem?_cons_succ, ih (by omega), show n + 1 - 1 - (j + 1) = n - 1 - j by omega]

/-- The high bytes of a number stand in front of its low bytes. -/
theorem beBytes_add (m n v : Nat) : beBytes (m + n) v = beBytes m (v / 256 ^ n) ++ beBytes n v := by
  induction m with
  | zero => simp [beBytes]
  | succ m ih =>
    rw [Nat.add_right_comm, beBytes, beBytes, ih, Nat.div_div_eq_div_mul, ← Nat.pow_add, Nat.add_comm n m,
      List.cons_append]

/-- What lies above the `n` bytes does not enter them. -/
theorem beBytes_add_mul (n v q : Nat) : beBytes n (v + 256 ^ n * q) = beBytes n v := by
  induction n generalizing q with
  | zero => rfl
  | succ n ih =>
    have hdiv : (v + 256 ^ n * (256 * q)) / 256 ^ n = v / 256 ^ n + 256 * q :=
      Nat.add_mul_div_left _ _ (by positivity)
    rw [Nat.pow_succ, Nat.mul_assoc, beBytes, beBytes, ih, hdiv]
    congr 1
    exact BitVec.eq_of_toNat_eq (by simp)

theorem beBytes_mod (n v : Nat) : beBytes n (v % 256 ^ n) = beBytes n v := by
  rw [← beBytes_add_mul n _ (v / 256 ^ n), Nat.mod_add_div]

/-! ### Block writes -/

/-- Two block writes, the second right behind the first, are one. -/
theorem Memory.writeBytes_append (m : Memory) (a : Nat) (xs ys : List Byte) :
    m.writeBytes a (xs ++ ys) = (m.writeBytes a xs).writeBytes (a + xs.length) ys := by
  induction xs generalizing m a with
  | nil => rfl
  | cons x xs ih =>
    rw [List.cons_append, Memory.writeBytes, Memory.writeBytes, ih, List.length_cons, Nat.add_right_comm, Nat.add_assoc]

/-- A block write is read back whole. -/
theorem Memory.readBytes_writeBytes (m : Memory) (a : Nat) (bs : List Byte) :
    (m.writeBytes a bs).readBytes a bs.length = some bs := by
  refine (Memory.readBytes_eq_some _ _ _ _).2 ⟨rfl, fun k hk => ?_⟩
  rw [Memory.read_writeBytes, if_pos (by omega), Nat.add_sub_cancel_left]

theorem read_memWrite_at {n j : Nat} (m : Memory) (a v : Nat) (hj : j < n) :
    (memWrite m a n v).read (a + j) = some (BitVec.ofNat 8 (v / 256 ^ (n - 1 - j))) := by
  rw [memWrite, Memory.read_writeBytes, if_pos (by simpa using hj), Nat.add_sub_cancel_left, beBytes_getElem? v hj]

theorem read_memWrite_outside {a n x : Nat} (m : Memory) (v : Nat) (hx : x < a ∨ a + n ≤ x) :
    (memWrite m a n v).read x = m.read x := by
  rw [memWrite, Memory.read_writeBytes, if_neg (by rw [beBytes_length]; omega)]

/-- The high bytes and, right behind them, the low bytes of a number: one write of the number. -/
theorem memWrite_memWrite (mem : Memory) (a m n v : Nat) :
    memWrite (memWrite mem a m (v / 256 ^ n)) (a + m) n (v % 256 ^ n) = memWrite mem a (m + n) v := by
  rw [memWrite, memWrite, memWrite, beBytes_mod, beBytes_add, Memory.writeBytes_append, beBytes_length]

/-! ### The length field -/

theorem lenHi_toNat (len : BitVec 64) : (lenHi len).toNat = len.toNat / 256 ^ 4 := by
  rw [lenHi, BitVec.extractLsb'_toNat, Nat.shiftRight_eq_div_pow]
  omega

theorem lenLo_toNat (len : BitVec 64) : (lenLo len).toNat = len.toNat % 256 ^ 4 := by
  rw [lenLo, BitVec.extractLsb'_toNat, Nat.shiftRight_zero]
  rfl

/-- The two words of the length field are the counter as one 8-byte number (R56, R167). -/
theorem insertLength_buf (c : Context) : (insertLength c).buf = memWrite c.buf 56 8 c.bitLength.toNat := by
  rw [insertLength, lenHi_toNat, lenLo_toNat]
  exact memWrite_memWrite c.buf 56 4 4 _

/-- Settles O41: the length field is one 8-byte write at address 56, and no field but `BUF` is written. -/
theorem lengthFieldBytes : Obligations.LengthFieldBytes := by
  intro c
  rw [insertLength_buf]
  exact ⟨fun j hj => read_memWrite_at c.buf 56 _ hj, fun a ha => read_memWrite_outside c.buf _ ha,
    by rw [← insertLength_buf, insertLength]⟩

/-! ### The digest in `OUT` -/

theorem hashBytes_length (h : Hash) : (hashBytes h).length = 20 := by simp [hashBytes]

/-- The serialiser writes the 20 digest bytes as one block from address 0 (R57, R170). -/
theorem serialise_eq_writeBytes (h : Hash) (out : Memory) : serialise h out = out.writeBytes 0 (hashBytes h) := by
  simp [serialise, memWrite, hashBytes, Memory.writeBytes_append]

theorem readBytes_serialise (h : Hash) (out : Memory) : (serialise h out).readBytes 0 20 = some (hashBytes h) := by
  rw [serialise_eq_writeBytes, ← hashBytes_length h, Memory.readBytes_writeBytes]

theorem read_serialise_outside {a : Nat} (h : Hash) (out : Memory) (ha : 20 ≤ a) :
    (serialise h out).read a = out.read a := by
  rw [serialise_eq_writeBytes, Memory.read_writeBytes, hashBytes_length, if_neg (by omega)]

/-- Settles O42: byte `j` of word `i` is written by the word's own `MemWrite`, and the later ones go elsewhere. -/
theorem digestByteOrder : Obligations.DigestByteOrder := by
  intro h out
  refine ⟨fun j hj => ?_, fun a ha => read_serialise_outside h out ha⟩
  have h0 := read_memWrite_at out 0 h.h0.toNat hj
  rw [Nat.zero_add] at h0
  simp (disch := omega) only [serialise, read_memWrite_outside, read_memWrite_at, h0, and_self]

/-- Settles O45, by the effects of the commands: the two that write `OUT` are a `FINISH` that delivers the digest of the
Context it leaves, and an error that marks the context returns another status. -/
theorem outWrittenOnlyBySuccessfulFinish : Obligations.OutWrittenOnlyBySuccessfulFinish := by
  intro i s t h
  cases exec_effect h with
  | restart | empty | absorbed | overflowed => rw [if_neg (by simp)]; rfl
  | unmarked _ _ hi => rw [if_neg (by rintro ⟨rfl, -⟩; simp [ctxValid] at hi)]; rfl
  | marked _ _ st hst _ => rw [if_neg fun ⟨_, he⟩ => hst (statusCode_injective he)]; rfl
  | delivered | finished =>
    rw [if_pos ⟨rfl, by simp [statusCode]⟩, deliverDigest_out, deliverDigest_ctx]
    exact ⟨readBytes_serialise _ _, fun a ha => read_serialise_outside _ _ ha⟩

end Sys2Proof.Machine
end

section
/-! PROOFS. Frames and commands (R80 to R85, R88, R89): decoding and encoding undo each other, each format is a mask and a
match over the four header fields, and a reserved frame has no step. -/

namespace Sys2Proof

/-! ### Decoding is the inverse of encoding -/

/-- `OP = 3` decodes to the reserved command, whatever else the frame holds (R89 (a)). -/
theorem decode_of_op_three {hdr : Word} (pay : List Byte) (h : hdrOp hdr = 3) :
    decode hdr pay = .ok (.reserved (hdr.extractLsb' 2 30) pay) := by
  simp [decode, h]

/-- Settles O1, by the constructors: the encoder packs the fields that the decoder of the format reads, and the bound on
the payload is what makes `LEN` its length. -/
theorem decodeOfEncode : Obligations.DecodeOfEncode := by
  intro i hi
  cases i with
  | init cv => simp [encode, decode]
  | append cv pay =>
    have hcount : (BitVec.ofNat 28 pay.length).toNat = pay.length :=
      Nat.mod_eq_of_lt (by simpa [Instr.wf] using hi)
    simp [encode, decode, hcount]
  | finish cv ov => simp [encode, decode]
  | reserved rest pay =>
    have hrest : (rest ++ (3 : BitVec 2) : BitVec (30 + 2)).extractLsb' 2 30 = rest := BitVec.extractLsb'_append_eq_left
    rw [encode, decode_of_op_three pay (hdrOp_reservedHeader rest), hrest]

/-- Settles O2, by what a frame that decodes can be: in each format the header is its four fields, so that the encoder
packs them into the same header. -/
theorem encodeOfDecode : Obligations.EncodeOfDecode := by
  intro hdr pay i h
  have hpack := packHeader_fields hdr
  obtain ⟨hop, hov, hlen, rfl, rfl⟩ | ⟨hop, hov, hpay, rfl⟩ | ⟨hop, hlen, rfl, rfl⟩ | ⟨hop, rfl⟩ := decode_ok h
  · rw [hop, hov, hlen] at hpack
    exact ⟨rfl, congrArg (·, []) hpack⟩
  · have hcount : BitVec.ofNat 28 pay.length = hdrLen hdr := by rw [hpay, BitVec.ofNat_toNat, BitVec.setWidth_eq]
    rw [hop, hov, ← hcount] at hpack
    exact ⟨decide_eq_true (hpay ▸ (hdrLen hdr).isLt), congrArg (·, pay) hpack⟩
  · rw [hop, hlen] at hpack
    exact ⟨rfl, congrArg (·, []) hpack⟩
  · exact ⟨rfl, congrArg (·, pay) (reservedHeader_fields hdr hop)⟩

/-- The frames that decode to a command: the command's own, if a frame can carry it. -/
theorem decode_eq_ok_iff {hdr : Word} {pay : List Byte} {i : Instr} :
    decode hdr pay = .ok i ↔ i.wf = true ∧ encode i = (hdr, pay) := by
  constructor
  · exact encodeOfDecode hdr pay i
  · rintro ⟨hwf, he⟩
    simpa [he] using decodeOfEncode i hwf

/-! ### Masks and matches -/

section
variable {len len' : BitVec 28} {ov ov' cv cv' : Bool} {op op' : BitVec 2} {hdr : Word}

/-- A header is packed from four fields exactly when they are its fields. -/
theorem eq_packHeader_iff :
    hdr = packHeader len ov cv op ↔ hdrLen hdr = len ∧ hdrOv hdr = ov ∧ hdrCv hdr = cv ∧ hdrOp hdr = op := by
  constructor
  · rintro rfl
    simp
  · rintro ⟨rfl, rfl, rfl, rfl⟩
    exact (packHeader_fields hdr).symm

/-- A mask over packed headers is a mask over each field. -/
theorem packHeader_and_packHeader :
    packHeader len ov cv op &&& packHeader len' ov' cv' op' =
      packHeader (len &&& len') (ov && ov') (cv && cv') (op &&& op') := by
  unfold packHeader
  rw [← BitVec.ofBool_and_ofBool, ← BitVec.ofBool_and_ofBool, ← BitVec.and_append, ← BitVec.and_append,
    ← BitVec.and_append]

/-- A header matches under a mask exactly when each of its fields does. -/
theorem and_packHeader_eq_iff :
    hdr &&& packHeader len ov cv op = packHeader len' ov' cv' op' ↔
      hdrLen hdr &&& len = len' ∧ (hdrOv hdr && ov) = ov' ∧ (hdrCv hdr && cv) = cv' ∧ hdrOp hdr &&& op = op' := by
  rw [← packHeader_fields hdr, packHeader_and_packHeader, eq_packHeader_iff]
  simp

end

/-- The mask and match of format I (R82): every field but `CV` is 0. -/
theorem initMask_iff (hdr : Word) :
    hdr &&& 0xFFFFFFFB = 0x00000000 ↔ hdrLen hdr = 0 ∧ hdrOv hdr = false ∧ hdrOp hdr = 0 := by
  have hmask : (0xFFFFFFFB : Word) = packHeader (.allOnes 28) true false (.allOnes 2) := rfl
  have hmatch : (0x00000000 : Word) = packHeader 0 false false 0 := rfl
  rw [hmask, hmatch, and_packHeader_eq_iff, BitVec.and_allOnes, BitVec.and_allOnes]
  simp

/-- The mask and match of format A (R83): `OV` is 0 and `OP` is 1. -/
theorem appendMask_iff (hdr : Word) : hdr &&& 0x0000000B = 0x00000001 ↔ hdrOv hdr = false ∧ hdrOp hdr = 1 := by
  have hmask : (0x0000000B : Word) = packHeader 0 true false (.allOnes 2) := rfl
  have hmatch : (0x00000001 : Word) = packHeader 0 false false 1 := rfl
  rw [hmask, hmatch, and_packHeader_eq_iff, BitVec.and_allOnes]
  simp

/-- The mask and match of format F (R84): `LEN` is 0 and `OP` is 2. -/
theorem finishMask_iff (hdr : Word) : hdr &&& 0xFFFFFFF3 = 0x00000002 ↔ hdrLen hdr = 0 ∧ hdrOp hdr = 2 := by
  have hmask : (0xFFFFFFF3 : Word) = packHeader (.allOnes 28) false false (.allOnes 2) := rfl
  have hmatch : (0x00000002 : Word) = packHeader 0 false false 2 := rfl
  rw [hmask, hmatch, and_packHeader_eq_iff, BitVec.and_allOnes, BitVec.and_allOnes]
  simp

/-! ### The three formats -/

section
variable {hdr : Word} {pay : List Byte}

/-- The frames of `INIT` (R82): a header with the one operand `CV`, and no payload. -/
theorem decode_eq_init_iff {cv : Bool} :
    decode hdr pay = .ok (.init cv) ↔ hdr = packHeader 0 false cv 0 ∧ pay = [] := by
  simp only [decode_eq_ok_iff, Instr.wf, true_and, encode, Prod.mk.injEq, eq_comm]

/-- The frames of `APPEND`, by the fields of the header (R83): `LEN` is the length of the payload. -/
theorem decode_eq_append_iff {cv : Bool} {pay' : List Byte} :
    decode hdr pay = .ok (.append cv pay') ↔
      pay.length = (hdrLen hdr).toNat ∧ hdrOv hdr = false ∧ hdrCv hdr = cv ∧ hdrOp hdr = 1 ∧ pay' = pay := by
  constructor
  · intro h
    obtain ⟨-, -, -, -, hi⟩ | ⟨hop, hov, hlen, hi⟩ | ⟨-, -, -, hi⟩ | ⟨-, hi⟩ := decode_ok h <;> cases hi
    exact ⟨hlen, hov, rfl, hop, rfl⟩
  · rintro ⟨hlen, hov, rfl, hop, rfl⟩
    simp [decode, hop, hov, hlen]

/-- The frames of `FINISH` (R84): a header with the operands `CV` and `OV`, and no payload. -/
theorem decode_eq_finish_iff {cv ov : Bool} :
    decode hdr pay = .ok (.finish cv ov) ↔ hdr = packHeader 0 ov cv 2 ∧ pay = [] := by
  simp only [decode_eq_ok_iff, Instr.wf, true_and, encode, Prod.mk.injEq, eq_comm]

end

/-- Settles O3: the frame of an `INIT` is a header whose fields but `CV` are 0, and no payload. -/
theorem initFrames : Obligations.InitFrames := by
  intro hdr pay
  constructor
  · rw [initMask_iff]
    simp [decode_eq_init_iff, eq_packHeader_iff]
  · intro cv
    rw [decode_eq_init_iff]
    cases cv <;> rfl

/-- Settles O5: the frame of a `FINISH` is a header with `LEN = 0` and `OP = 2`, and no payload. -/
theorem finishFrames : Obligations.FinishFrames := by
  intro hdr pay
  constructor
  · rw [finishMask_iff]
    simp [decode_eq_finish_iff, eq_packHeader_iff]
  · intro cv ov
    rw [decode_eq_finish_iff]
    cases cv <;> cases ov <;> rfl

/-- The header of an `APPEND` as a number (R83): `16 * LEN`, 4 for a valid context, and `OP = 1`. -/
theorem encode_append_eq (cv : Bool) (pay : List Byte) :
    encode (.append cv pay) = (BitVec.ofNat 32 (pay.length * 16 + (cv.toNat * 4 + 1)), pay) := by
  refine congrArg (·, pay) (BitVec.eq_of_toNat_eq ?_)
  rw [packHeader_toNat]
  cases cv <;> simp <;> omega

/-- Settles O4: `LEN = HDR[31:4]` is the length of the payload, and the headers with a valid context and with none are the
encoder's. -/
theorem appendFrames : Obligations.AppendFrames := by
  constructor
  · intro hdr pay pay' cv
    rw [appendMask_iff, decode_eq_append_iff, hdrLen_toNat]
    constructor
    · rintro ⟨hlen, hov, hcv, hop, hpay⟩
      exact ⟨⟨hov, hop⟩, hlen, hcv.symm, hpay⟩
    · rintro ⟨⟨hov, hop⟩, hlen, hcv, hpay⟩
      exact ⟨hlen, hov, hcv.symm, hop, hpay⟩
  · intro pay hlen
    have hdecode (cv : Bool) := decodeOfEncode (.append cv pay) (decide_eq_true hlen)
    simp only [encode_append_eq] at hdecode
    exact ⟨hdecode true, hdecode false⟩

/-! ### The reserved frames -/

/-- The reserved frames, by the fields of the header (R89 (a) to (d)). -/
theorem reservedFrame_iff {hdr : Word} {pay : List Byte} :
    Machine.ReservedFrame hdr pay ↔
      hdrOp hdr = 3 ∨ ((hdrOp hdr = 0 ∨ hdrOp hdr = 2) ∧ hdrLen hdr ≠ 0) ∨
      ((hdrOp hdr = 0 ∨ hdrOp hdr = 1) ∧ hdrOv hdr = true) ∨
      (hdrOp hdr = 1 ∧ pay.length ≠ (hdrLen hdr).toNat) := by
  simp [Machine.ReservedFrame, ← BitVec.toNat_inj, hdrOp_toNat, hdrLen_toNat, hdrOv_eq]

/-- A reserved frame decodes to no command but the reserved one (R89). -/
theorem decode_of_reservedFrame {hdr : Word} {pay : List Byte} {i : Instr} (hr : Machine.ReservedFrame hdr pay)
    (h : decode hdr pay = .ok i) : ∃ rest pay', i = .reserved rest pay' := by
  rw [reservedFrame_iff] at hr
  obtain ⟨hop, hov, hlen, -, -⟩ | ⟨hop, hov, hpay, -⟩ | ⟨hop, hlen, -, -⟩ | ⟨-, rfl⟩ := decode_ok h
  · simp [hop, hov, hlen] at hr
  · simp [hop, hov, hpay] at hr
  · simp [hop, hlen] at hr
  · exact ⟨_, _, rfl⟩

/-- A frame that is not reserved, and carries a payload only with `OP = 1`, is a command (R82 to R84). -/
theorem decode_of_not_reservedFrame {hdr : Word} {pay : List Byte} (hr : ¬ Machine.ReservedFrame hdr pay)
    (hpay : hdrOp hdr ≠ 1 → pay = []) : ∃ i, decode hdr pay = .ok i ∧ ∀ rest pay', i ≠ .reserved rest pay' := by
  simp only [reservedFrame_iff, not_or, not_and, not_not, Bool.not_eq_true] at hr
  obtain ⟨h3, hlen, hov, hcount⟩ := hr
  by_cases h0 : hdrOp hdr = 0
  · have hp := hpay (by simp [h0])
    exact ⟨_, decode_eq_init_iff.2 ⟨eq_packHeader_iff.2 ⟨hlen (.inl h0), hov (.inl h0), rfl, h0⟩, hp⟩, by simp⟩
  by_cases h1 : hdrOp hdr = 1
  · exact ⟨_, decode_eq_append_iff.2 ⟨hcount h1, hov (.inr h1), rfl, h1, rfl⟩, by simp⟩
  · have h2 : hdrOp hdr = 2 := by bv_omega
    exact ⟨_, decode_eq_finish_iff.2 ⟨eq_packHeader_iff.2 ⟨hlen (.inr h2), rfl, rfl, h2⟩, hpay h1⟩, by simp⟩

/-- The step refuses a frame that the decoder rejects, under the name of what is reserved about it. -/
theorem Machine.step_of_frame_rejected {s : Machine.State} {hdr : Word} {pay : List Byte}
    {rest : List Machine.HostMove} {e : DecodeError} (hp : s.pending = .frame hdr pay :: rest)
    (hd : decode hdr pay = .error e) : Machine.step s = .refused (Machine.refusalOfDecode e) := by
  simp only [Machine.step, hp, hd]

/-- Settles O7: the reserved operation's meaning is its refusal. -/
theorem reservedCommandRefused : Obligations.ReservedCommandRefused := fun _ _ _ => rfl

/-- Settles O6: a reserved frame is rejected by the decoder, or is the reserved command, which is refused; in any other
frame the fields are those of a format. -/
theorem reservedFramesRefused : Obligations.ReservedFramesRefused := by
  constructor
  · intro s hdr pay rest hp hr
    cases hd : decode hdr pay with
    | error e => exact ⟨_, Machine.step_of_frame_rejected hp hd, by cases e <;> simp [Machine.refusalOfDecode]⟩
    | ok i =>
      obtain ⟨bits, pay', rfl⟩ := decode_of_reservedFrame hr hd
      exact ⟨_, (Machine.step_of_frame_decodes hp hd).trans (reservedCommandRefused bits pay' _), by simp⟩
  · intro hdr pay hr hpay
    have hop (h : hdr.toNat % 4 = 1) : hdrOp hdr = 1 := BitVec.eq_of_toNat_eq ((hdrOp_toNat hdr).trans h)
    exact decode_of_not_reservedFrame hr fun h1 => hpay (mt hop h1)

/-- Settles O8: each frame is the one its command encodes to. -/
theorem sampleFramesDecode : Obligations.SampleFramesDecode :=
  ⟨decodeOfEncode (.init true) rfl, decodeOfEncode (.init false) rfl,
    decodeOfEncode (.append true [0x61, 0x62, 0x63]) rfl, decodeOfEncode (.append false [0x64]) rfl,
    decodeOfEncode (.append true []) rfl, decodeOfEncode (.finish true true) rfl,
    decodeOfEncode (.finish true false) rfl, decodeOfEncode (.finish false true) rfl,
    decodeOfEncode (.finish false false) rfl⟩

end Sys2Proof
end

section
/-! PROOFS. The message under the padding path (R163 to R168, R173, R174): the engine is a run of stored bytes, a stored
byte extends what `H` and `BUF` hold, and the last block completes the padded message. -/

namespace Sys2Proof.Machine

/-! ### The padding engine as a run of stored bytes -/

theorem storeFlushAll_cons (v : Byte) (vs : List Byte) (c : Context) :
    storeFlushAll (v :: vs) c = (storeFlush v c).bind (storeFlushAll vs) := rfl

/-- Two continuations that agree on what a stored byte leaves agree behind that byte. -/
theorem storeFlush_bind_congr {v : Byte} {c : Context} {f g : Context → Except Fault Context}
    (h : ∀ c', storeFlush v c = .ok c' → f c' = g c') : (storeFlush v c).bind f = (storeFlush v c).bind g := by
  cases hs : storeFlush v c with
  | error e => rfl
  | ok c' => exact h c' hs

theorem atLengthField_iff {c : Context} : atLengthField c = true ↔ c.blockIndex.toNat = 56 := by simp [atLengthField]

/-- The zero fill stores as many zeros as the cursor is short of 56, modulo 64 (R165). -/
theorem zeroFill_eq_storeFlushAll {n k : Nat} {c : Context} (hc : c.blockIndex.toNat < 64)
    (hk : (c.blockIndex.toNat + k) % 64 = 56) (hk64 : k < 64) (hkn : k ≤ n) :
    zeroFill n c = storeFlushAll (List.replicate k 0x00) c := by
  induction k generalizing n c with
  | zero =>
    have hat : atLengthField c = true := atLengthField_iff.2 (by omega)
    cases n with
    | zero => rfl
    | succ n => exact if_pos hat
  | succ k ih =>
    obtain ⟨n, rfl⟩ : ∃ n', n = n' + 1 := ⟨n - 1, by omega⟩
    have hat : c.blockIndex.toNat ≠ 56 := by omega
    rw [zeroFill, if_neg (mt atLengthField_iff.1 hat), List.replicate_succ, storeFlushAll_cons]
    refine storeFlush_bind_congr fun c' hs => ?_
    have hcur := storeFlush_cursor hs
    exact ih (by omega) (by omega) (by omega) (by omega)

/-- The padding engine stores the marker and `(55 - i) mod 64` zeros (R164, R165). -/
theorem padBlock_eq_storeFlushAll {c : Context} (hc : c.blockIndex.toNat < 64) :
    padBlock c = storeFlushAll (0x80 :: List.replicate (padZeros c.blockIndex.toNat) 0x00) c := by
  rw [padBlock, storeFlushAll_cons]
  refine storeFlush_bind_congr fun c' hs => ?_
  have hcur := storeFlush_cursor hs
  have hz : padZeros c.blockIndex.toNat = (55 + 64 - c.blockIndex.toNat) % 64 := rfl
  exact zeroFill_eq_storeFlushAll (by omega) (by omega) (by omega) (show _ ≤ 64 by omega)

/-! ### What `H` and `BUF` hold -/

/-- Counter and flags aside, the Context stands behind the bytes `m`: the whole blocks `done` are folded into `H`, and the
bytes `rest` stand in `BUF` below the cursor. The padding bytes, which the counter does not count (R163), extend `m`. -/
def Context.Holds (c : Context) (m : List Byte) : Prop :=
  ∃ n done rest, m = done ++ rest ∧ done.length = 64 * n ∧ rest.length < 64 ∧
    c.hash = hashBlocks n done initialHash ∧ c.blockIndex.toNat = rest.length ∧
    c.buf.readBytes 0 rest.length = some rest

/-- A Context that stands for a message holds it. -/
theorem Context.Represents.holds {c : Context} {m : List Byte} (h : c.Represents m) : c.Holds m := by
  obtain ⟨-, hcur, hhash, hbuf⟩ := h
  have hsplit := List.take_append_drop (64 * (m.length / 64)) m
  have hrest : (m.drop (64 * (m.length / 64))).length = m.length % 64 := by rw [List.length_drop]; omega
  refine ⟨m.length / 64, m.take (64 * (m.length / 64)), m.drop (64 * (m.length / 64)), hsplit.symm, ?_, by omega, ?_,
    by omega, by rwa [hrest]⟩
  · rw [List.length_take]
    omega
  · rw [hhash, ← hashBlocks_append (m := m.take _) (m.drop _) initialHash (by rw [List.length_take]; omega), hsplit]

/-- One whole block more is folded in last. -/
theorem hashBlocks_concat {n : Nat} {done blk : List Byte} (h : Hash) (hn : done.length = 64 * n)
    (hb : blk.length = 64) : hashBlocks (n + 1) (done ++ blk) h = compress (hashBlocks n done h) blk := by
  rw [hashBlocks_succ, hashBlocks_append _ _ hn.ge, ← hn, List.drop_left, List.take_of_length_le hb.le]

/-- A stored byte extends what the Context holds (R113, R115, R163). -/
theorem storeFlush_holds {v : Byte} {c c' : Context} {m : List Byte} (hm : c.Holds m) (h : storeFlush v c = .ok c') :
    c'.Holds (m ++ [v]) := by
  obtain ⟨n, done, rest, rfl, hdone, hrest, hhash, hcur, hbuf⟩ := hm
  have hread := Memory.readBytes_write_snoc v hbuf
  have hsnoc : (rest ++ [v]).length = rest.length + 1 := List.length_append
  rw [Nat.zero_add, ← hcur] at hread
  rw [List.append_assoc]
  obtain ⟨h63, rfl⟩ | ⟨h63, blk, hblk, rfl⟩ := storeFlush_ok h
  · refine ⟨n, done, rest ++ [v], rfl, hdone, by omega, hhash, ?_, by rwa [hsnoc, ← hcur]⟩
    simp only [cursor_succ (show c.blockIndex.toNat < 64 by omega)]
    omega
  · rw [h63, hblk, Option.some.injEq] at hread
    subst hread
    refine ⟨n + 1, done ++ (rest ++ [v]), [], by simp, by simp; omega, by simp, ?_, rfl, rfl⟩
    rw [hashBlocks_concat initialHash hdone (by omega), hhash]

/-- Bytes stored from a full buffer are all stored, and extend what the Context holds. -/
theorem storeFlushAll_holds (bs : List Byte) {c : Context} {m : List Byte} (hm : c.Holds m)
    (hf : Memory.full 64 c.buf = true) :
    ∃ c', storeFlushAll bs c = .ok c' ∧ c'.Holds (m ++ bs) := by
  induction bs generalizing c m with
  | nil => exact ⟨c, rfl, by simpa using hm⟩
  | cons v vs ih =>
    have hcur : c.blockIndex.toNat < 64 := by
      obtain ⟨_, _, _, -, -, hrest, -, hcur, -⟩ := hm
      omega
    obtain ⟨c1, hs⟩ := storeFlush_completes (v := v) hcur hf
    obtain ⟨c', ha, hh⟩ := ih (storeFlush_holds hm hs) (storeFlush_full hs hf)
    refine ⟨c', ?_, by simpa using hh⟩
    rw [storeFlushAll_cons, hs]
    exact ha

/-! ### The padding path -/

/-- Two block reads, the second right behind the first, are one. -/
theorem Memory.readBytes_add {m : Memory} {a n k : Nat} {xs ys : List Byte} (hx : m.readBytes a n = some xs)
    (hy : m.readBytes (a + n) k = some ys) : m.readBytes a (n + k) = some (xs ++ ys) := by
  obtain ⟨hxl, hxg⟩ := (Memory.readBytes_eq_some _ _ _ _).1 hx
  obtain ⟨hyl, hyg⟩ := (Memory.readBytes_eq_some _ _ _ _).1 hy
  refine (Memory.readBytes_eq_some _ _ _ _).2 ⟨by simp [hxl, hyl], fun j hj => ?_⟩
  rcases Nat.lt_or_ge j n with hjn | hjn
  · rw [hxg j hjn, List.getElem?_append_left (by omega)]
  · rw [List.getElem?_append_right (by omega), hxl, ← hyg (j - n) (by omega)]
    congr 1
    omega

/-- The block with its length field: the 56 bytes in front of the field, and the counter in 8 bytes (R56, R167). -/
theorem readBytes_insertLength {c : Context} {bs : List Byte} (h : c.buf.readBytes 0 56 = some bs) :
    (insertLength c).buf.readBytes 0 64 = some (bs ++ beBytes 8 c.bitLength.toNat) := by
  obtain ⟨hlen, hget⟩ := (Memory.readBytes_eq_some _ _ _ _).1 h
  rw [insertLength_buf]
  refine Memory.readBytes_add (n := 56) (k := 8)
    ((Memory.readBytes_eq_some _ _ _ _).2 ⟨hlen, fun k hk => ?_⟩) ?_
  · rw [read_memWrite_outside _ _ (by omega), hget k hk]
  · have hfield := Memory.readBytes_writeBytes c.buf 56 (beBytes 8 c.bitLength.toNat)
    rwa [beBytes_length, ← memWrite] at hfield

/-- The padding engine leaves a Context that holds the message, the marker and the zeros (R164, R165). -/
theorem padBlock_of_represents {c : Context} {m : List Byte} (hm : c.Represents m)
    (hf : Memory.full 64 c.buf = true) :
    ∃ c', padBlock c = .ok c' ∧ c'.Holds (m ++ 0x80 :: List.replicate (padZeros (m.length % 64)) 0x00) := by
  have ⟨_, hcur, _, _⟩ := hm
  rw [padBlock_eq_storeFlushAll (by omega), hcur]
  exact storeFlushAll_holds _ hm.holds hf

/-- The padding path completes the padded message and folds its last block in: `H` is the digest (R173, R174). -/
theorem finalize_of_represents {c : Context} {m : List Byte} (hm : c.Represents m)
    (hf : Memory.full 64 c.buf = true) : ∃ c', finalize c = .ok c' ∧ hashBytes c'.hash = digest m := by
  have ⟨hcount, _, _, _⟩ := hm
  obtain ⟨c1, hpad, n, done, rest, hsplit, hdone, hrest, hhash, -, hbuf⟩ := padBlock_of_represents hm hf
  have h56 : rest.length = 56 := by
    have hz : padZeros (m.length % 64) = (55 + 64 - m.length % 64) % 64 := rfl
    have hlen := congrArg List.length hsplit
    simp only [List.length_append, List.length_cons, List.length_replicate] at hlen
    omega
  have hblk := readBytes_insertLength (h56 ▸ hbuf)
  rw [padBlock_bitLength hpad, hcount] at hblk
  have hpadded : padded m = done ++ (rest ++ beBytes 8 (8 * m.length)) := by
    rw [← List.append_assoc, ← hsplit]
    simp [padded]
  have hblocks : (padded m).length / 64 = n + 1 := by
    rw [hpadded, List.length_append, List.length_append, beBytes_length]
    omega
  refine ⟨_, finalize_ok.2 ⟨c1, _, hpad, hblk, rfl⟩, ?_⟩
  rw [digest, hblocks, hpadded, hashBlocks_concat initialHash hdone (by simp [h56]), ← hhash, cleanUp_hash]

end Sys2Proof.Machine
end

section
/-! PROOFS. The run of a message (R91, R120, R174): `INIT`, any `APPEND`s, `FINISH`; and the pseudo-command as one. -/

namespace Sys2Proof.Machine

/-! ### The byte loop with room in the counter -/

/-- With room in the counter, the byte loop absorbs the whole payload and appends it to the message (R110, R114). -/
theorem absorbAll_of_represents (pay : List Byte) {c : Context} {m : List Byte} (hm : c.Represents m)
    (hf : Memory.full 64 c.buf = true) (hroom : m.length + pay.length ≤ 2 ^ 61 - 1) :
    ∃ c', absorbAll pay c = .ok (c', .success) ∧ c'.Represents (m ++ pay) := by
  induction pay generalizing c m with
  | nil => exact ⟨c, rfl, by simpa using hm⟩
  | cons v vs ih =>
    have ⟨hcount, hcur, _, _⟩ := hm
    rw [List.length_cons] at hroom
    have ho : lengthWouldOverflow c = false := by
      rw [← Bool.not_eq_true, lengthWouldOverflow_iff]
      omega
    obtain ⟨c1, hs⟩ := storeFlush_completes (v := v) (c := { c with bitLength := c.bitLength + 8 })
      (show c.blockIndex.toNat < 64 by omega) hf
    have ha : absorb v c = .ok c1 := (absorb_eq v c).trans hs
    obtain ⟨c', hl, hr⟩ := ih (absorb_represents hm ho ha) (storeFlush_full hs hf)
      (by rw [List.length_append, List.length_singleton]; omega)
    refine ⟨c', ?_, by simpa using hr⟩
    rw [absorbAll_cons, if_neg (by simp [ho]), ha]
    exact hl

/-! ### The commands of a run -/

/-- The core accepts and has absorbed exactly `m` since `INIT`. -/
def State.Absorbed (s : State) (m : List Byte) : Prop := s.Inv ∧ s.Accepts ∧ s.ctx.Represents m

/-- From any state `INIT` starts the empty message (R100). -/
theorem exec_init_absorbed {s : State} (hs : s.Inv) : ∃ t, exec (.init true) s = .next t ∧ t.Absorbed [] :=
  ⟨_, rfl, exec_keeps_inv (i := .init true) hs rfl, ⟨rfl, by simp, by simp⟩, initContext_represents s.ctx⟩

/-- An `APPEND` with room in the counter extends the message (R110). -/
theorem exec_append_absorbed {s : State} {m : List Byte} (pay : List Byte) (hs : s.Absorbed m)
    (hroom : m.length + pay.length ≤ 2 ^ 61 - 1) :
    ∃ t, exec (.append true pay) s = .next t ∧ t.Absorbed (m ++ pay) := by
  obtain ⟨hinv, ha, hm⟩ := hs
  have ⟨hi, hc, hx⟩ := ha
  have ⟨_, hbuf, _⟩ := hinv
  obtain ⟨c, hl, hr⟩ := absorbAll_of_represents pay hm (Memory.full_of_wf hbuf) hroom
  have he : exec (.append true pay) s = .next (returnStatus .success { s with ctx := c }) := by
    rw [exec, execAppend_accepting ha, hl, finishAppend]
  exact ⟨_, he, exec_keeps_inv hinv he,
    ⟨hi, (absorbAll_computed hl).trans hc, (absorbAll_corrupted hl).trans hx⟩, hr⟩

/-- A `FINISH` on an accepting context leaves the digest of its message in `OUT` (R170, R174). -/
theorem exec_finish_of_absorbed {s : State} {m : List Byte} (hs : s.Absorbed m) :
    ∃ t, exec (.finish true true) s = .next t ∧ t.status = 0 ∧ t.out.readBytes 0 20 = some (digest m) := by
  obtain ⟨⟨-, hbuf, -⟩, ha, hm⟩ := hs
  obtain ⟨c, hf, hd⟩ := finalize_of_represents hm (Memory.full_of_wf hbuf)
  refine ⟨deliverDigest { s with ctx := c }, ?_, by simp, ?_⟩
  · rw [exec, execFinish_accepting ha, hf]
  · rw [deliverDigest_out, readBytes_serialise, hd]

/-! ### Runs -/

theorem runCommands_cons_of_next {i : Instr} {is : List Instr} {s t : State} (h : exec i s = .next t) :
    runCommands (i :: is) s = runCommands is t := by
  rw [runCommands, h]

/-- A run goes on from where its first part ended (R65). -/
theorem runCommands_append_of_next {xs ys : List Instr} {s t : State} (h : runCommands xs s = .next t) :
    runCommands (xs ++ ys) s = runCommands ys t := by
  induction xs generalizing s with
  | nil => rw [← Host.Outcome.next.inj h, List.nil_append]
  | cons i is ih =>
    cases he : exec i s with
    | next u =>
      rw [runCommands_cons_of_next he] at h
      rw [List.cons_append, runCommands_cons_of_next he, ih h]
    | fault f => simp [runCommands, he] at h
    | refused r => simp [runCommands, he] at h

/-- `APPEND`s with room in the counter extend the message by their payloads in order (R120). -/
theorem runCommands_appends_absorbed (chunks : List (List Byte)) {s : State} {m : List Byte} (hs : s.Absorbed m)
    (hroom : m.length + chunks.flatten.length ≤ 2 ^ 61 - 1) :
    ∃ t, runCommands (chunks.map (.append true)) s = .next t ∧ t.Absorbed (m ++ chunks.flatten) := by
  induction chunks generalizing s m with
  | nil => exact ⟨s, rfl, by simpa using hs⟩
  | cons pay chunks ih =>
    rw [List.flatten_cons, List.length_append] at hroom
    obtain ⟨u, he, hu⟩ := exec_append_absorbed pay hs (by omega)
    obtain ⟨t, hr, ht⟩ := ih hu (by rw [List.length_append]; omega)
    refine ⟨t, ?_, by simpa using ht⟩
    rw [List.map_cons, runCommands_cons_of_next he, hr]

/-- `INIT`, `APPEND`s of at most `2^61 - 1` bytes in all and `FINISH` leave the digest of the bytes in `OUT` (R174). -/
theorem runCommands_digest {s : State} (chunks : List (List Byte)) (hs : s.Inv)
    (hlen : chunks.flatten.length ≤ 2 ^ 61 - 1) :
    ∃ t, runCommands (.init true :: chunks.map (.append true) ++ [.finish true true]) s = .next t ∧
      t.status = 0 ∧ t.out.readBytes 0 20 = some (digest chunks.flatten) := by
  obtain ⟨s0, hinit, h0⟩ := exec_init_absorbed hs
  obtain ⟨s1, happ, h1⟩ := runCommands_appends_absorbed chunks h0 (by simpa using hlen)
  obtain ⟨t, hfin, hst, hout⟩ := exec_finish_of_absorbed h1
  refine ⟨t, ?_, hst, hout⟩
  rw [List.cons_append, runCommands_cons_of_next hinit, runCommands_append_of_next happ,
    runCommands_cons_of_next hfin, runCommands]

/-! ### The pseudo-command -/

/-- Each piece fits the `LEN` field (R253). -/
theorem length_lt_of_mem_cutPayload {n : Nat} {m pay : List Byte} (h : pay ∈ cutPayload n m) :
    pay.length < 2 ^ 28 := by
  induction n generalizing m with
  | zero => simp [cutPayload] at h
  | succ n ih =>
    rw [cutPayload] at h
    split at h
    · rename_i hm
      rwa [List.mem_singleton.1 h]
    · obtain rfl | h := List.mem_cons.1 h
      · rw [List.length_take]
        omega
      · exact ih h

/-- With enough pieces, the pieces are the bytes in order (R91). -/
theorem flatten_cutPayload {n : Nat} {m : List Byte} (h : m.length < n * (2 ^ 28 - 1)) : (cutPayload n m).flatten = m := by
  induction n generalizing m with
  | zero => omega
  | succ n ih =>
    rw [cutPayload]
    split
    · simp
    · rw [List.flatten_cons, ih (by rw [List.length_drop]; omega), List.take_append_drop]

/-- Settles O58: the pieces fit their frames and make up the bytes, and the run is that of a message in pieces. -/
theorem hashPseudoCommand : Obligations.HashPseudoCommand := by
  intro m
  have hflat : (cutPayload (m.length / (2 ^ 28 - 1) + 1) m).flatten = m := flatten_cutPayload (by omega)
  refine ⟨?_, ?_, fun s hs hlen => ?_⟩
  · simp only [hashCommands, appendCommands, List.mem_append, List.mem_cons, List.mem_map, List.not_mem_nil, or_false]
    rintro i ((rfl | ⟨pay, hpay, rfl⟩) | rfl)
    · rfl
    · exact decide_eq_true (length_lt_of_mem_cutPayload hpay)
    · rfl
  · have hpay : payloadOf ∘ Instr.append true = id := rfl
    simpa [hashCommands, appendCommands, payloadOf, hpay] using hflat
  · have hrun := runCommands_digest (cutPayload (m.length / (2 ^ 28 - 1) + 1) m) hs (by rwa [hflat])
    rwa [hflat] at hrun

end Sys2Proof.Machine
end

section
/-! PROOFS. `INIT` (R100, R101): the state it leaves, and that what the context held before has no part in it. -/

namespace Sys2Proof.Machine

/-- Two buffers in canonical form are the same buffer once they are zeroed. -/
theorem zeroBuf_eq_of_wf {m n : Memory} (hm : Memory.wf 64 m = true) (hn : Memory.wf 64 n = true) :
    zeroBuf m = zeroBuf n := by
  refine Memory.ext_of_wf (zeroBuf_wf hm) (zeroBuf_wf hn) fun a => ?_
  rw [Memory.read_zeroBuf, Memory.read_zeroBuf]
  split
  · rfl
  · rename_i ha
    rw [Memory.read_none_of_wf hm (by omega), Memory.read_none_of_wf hn (by omega)]

/-- `INIT` leaves one and the same Context, whatever the Context before it held (R100): it keeps nothing of `BUF` but
the list of addresses, and canonical buffers share that. -/
theorem initContext_eq_of_wf {c d : Context} (hc : Memory.wf 64 c.buf = true) (hd : Memory.wf 64 d.buf = true) :
    initContext c = initContext d := by
  rw [initContext, initContext, zeroBuf_eq_of_wf hc hd]

theorem initContext_initContext {c : Context} (hc : Memory.wf 64 c.buf = true) :
    initContext (initContext c) = initContext c :=
  initContext_eq_of_wf (by simpa using zeroBuf_wf hc) hc

theorem exec_init_true (s : State) : exec (.init true) s = .next (returnStatus .success (recover s)) := rfl

/-- Settles O16: the fields of the state `INIT` leaves, `BUF` by the reads of a zeroed buffer. -/
theorem initResetsContext : Obligations.InitResetsContext := fun s =>
  ⟨⟨_, exec_init_true s, by simp [initialHash], by simp, by simp, by simp, by simp,
    fun a => by simp [Memory.read_zeroBuf], rfl⟩, execInit_false s⟩

/-- Settles O17: the second `INIT` writes the Context that the first one left, and the status is `Success` again. -/
theorem initTwiceIsOnce : Obligations.InitTwiceIsOnce := by
  intro s t ⟨_, hbuf, _⟩ h
  rw [exec_init_true] at h
  rw [exec_init_true, ← Host.Outcome.next.inj h]
  simp [recover, returnStatus, initContext_initContext hbuf]

end Sys2Proof.Machine
end

section
/-! PROOFS. Runs after an `INIT` (R102): what a command answers is settled by the part of the state it reads, and `INIT`
makes that part the same on any two states of one policy and one `OUT`. -/

namespace Sys2Proof.Machine

/-- The two states agree on all that a command reads. Histories before `INIT` may differ in every other field, the count
of power-ons with them, which `commandsIgnoreInterfaceRegisters` does not vary. -/
structure State.Agree (s t : State) : Prop where
  ctx : s.ctx = t.ctx
  out : s.out = t.out
  initialised : s.initialised = t.initialised
  policy : s.finishOnComputed = t.finishOnComputed

namespace State.Agree

section
variable {s t : State} (h : s.Agree t)
include h

theorem withCtx (c : Context) : State.Agree { s with ctx := c } { t with ctx := c } :=
  ⟨rfl, h.out, h.initialised, h.policy⟩

theorem returnStatus_sameOutcome (st : Status) : SameOutcome (.next (returnStatus st s)) (.next (returnStatus st t)) :=
  ⟨h.ctx, h.out, rfl, h.initialised⟩

theorem errorEntry_sameOutcome (cv : Bool) (st : Status) :
    SameOutcome (.next (errorEntry cv st s)) (.next (errorEntry cv st t)) := by
  cases cv with
  | false => exact h.returnStatus_sameOutcome st
  | true => exact ⟨congrArg setCorrupted h.ctx, h.out, rfl, h.initialised⟩

theorem deliverDigest_sameOutcome : SameOutcome (.next (deliverDigest s)) (.next (deliverDigest t)) := by
  simp [SameOutcome, h.ctx, h.out, h.initialised]

theorem finishAppend_sameOutcome (r : Except Fault (Context × Status)) :
    SameOutcome (finishAppend s r) (finishAppend t r) := by
  cases r with
  | error f => rfl
  | ok r =>
    obtain ⟨c, st⟩ := r
    cases st with
    | success => exact (h.withCtx c).returnStatus_sameOutcome _
    | nullPointer | inputTooLong | stateError => exact (h.withCtx c).errorEntry_sameOutcome true _

theorem execAppend_sameOutcome (cv : Bool) (pay : List Byte) :
    SameOutcome (execAppend cv pay s) (execAppend cv pay t) := by
  rw [execAppend, execAppend, h.ctx, h.initialised]
  have herr := h.errorEntry_sameOutcome
  exact sameOutcome_ite (h.returnStatus_sameOutcome _) <| sameOutcome_ite (herr _ _) <| sameOutcome_ite rfl <|
    sameOutcome_ite (herr _ _) (h.finishAppend_sameOutcome _)

theorem execFinish_sameOutcome (cv ov : Bool) : SameOutcome (execFinish cv ov s) (execFinish cv ov t) := by
  rw [execFinish, execFinish, h.ctx, h.initialised, h.policy]
  have herr := h.errorEntry_sameOutcome
  refine sameOutcome_ite rfl <| sameOutcome_ite (herr _ _) <| sameOutcome_ite (herr _ _) <| sameOutcome_ite ?_ ?_
  · cases t.finishOnComputed with
    | stateError => exact herr _ _
    | reserialize => exact h.deliverDigest_sameOutcome
  · cases finalize t.ctx with
    | ok c => exact State.Agree.deliverDigest_sameOutcome ⟨rfl, h.out, rfl, rfl⟩
    | error f => rfl

/-- What a command answers is settled by the part of the state it reads (R65). -/
theorem exec_sameOutcome (i : Instr) : SameOutcome (exec i s) (exec i t) := by
  cases i with
  | init cv =>
    cases cv with
    | true => exact ⟨congrArg initContext h.ctx, h.out, rfl, rfl⟩
    | false => exact h.errorEntry_sameOutcome false _
  | append cv pay => exact h.execAppend_sameOutcome cv pay
  | finish cv ov => exact h.execFinish_sameOutcome cv ov
  | reserved rest pay => rfl

end

end State.Agree

/-- No command writes the policy (R9), so what one command reads still agrees when the next one runs. -/
theorem exec_finishOnComputed {i : Instr} {s t : State} (h : exec i s = .next t) :
    t.finishOnComputed = s.finishOnComputed := by
  cases exec_effect h <;> simp

/-- Runs of the same commands from states that agree cannot be told apart (R65). -/
theorem runCommands_sameOutcome (cmds : List Instr) {s t : State} (h : s.Agree t) (hst : s.status = t.status) :
    SameOutcome (runCommands cmds s) (runCommands cmds t) := by
  induction cmds generalizing s t with
  | nil => exact ⟨h.ctx, h.out, hst, h.initialised⟩
  | cons i is ih =>
    have hi := h.exec_sameOutcome i
    rw [runCommands, runCommands]
    match hs : exec i s, ht : exec i t, hi with
    | .next u, .next v, ⟨hctx, hout, hst', hinit⟩ =>
      have hpol : u.finishOnComputed = v.finishOnComputed := by
        rw [exec_finishOnComputed hs, exec_finishOnComputed ht, h.policy]
      exact ih ⟨hctx, hout, hinit, hpol⟩ hst'
    | .fault _, .fault _, hi | .refused _, .refused _, hi => exact hi

/-- `INIT` makes two states of one policy and one `OUT` agree (R102). -/
theorem returnStatus_recover_agree {s t : State} (hs : Memory.wf 64 s.ctx.buf = true)
    (ht : Memory.wf 64 t.ctx.buf = true) (hpol : s.finishOnComputed = t.finishOnComputed) (hout : s.out = t.out) :
    State.Agree (returnStatus .success (recover s)) (returnStatus .success (recover t)) :=
  ⟨initContext_eq_of_wf hs ht, hout, rfl, hpol⟩

/-- Settles O18: after `INIT` the states agree, and so does every run from them. -/
theorem initHidesHistory : Obligations.InitHidesHistory := by
  intro s t ⟨_, hs, _⟩ ⟨_, ht, _⟩ hpol hout cmds
  rw [runCommands_cons_of_next (exec_init_true s), runCommands_cons_of_next (exec_init_true t)]
  exact runCommands_sameOutcome cmds (returnStatus_recover_agree hs ht hpol hout) rfl

end Sys2Proof.Machine
end

section
/-! PROOFS. The byte loop of `APPEND` (R110, R113 to R115): one byte more, when it absorbs the whole payload, and what
it leaves of `BUF` and `H`. -/

namespace Sys2Proof.Machine

/-! ### The fields under one absorbed byte -/

section
variable {v : Byte} {c c' : Context}

/-- From a cursor in 0..63 and a buffer whose bytes all have a value, a byte is absorbed. -/
theorem absorb_completes (v : Byte) (hcur : c.blockIndex.toNat < 64) (hf : Memory.full 64 c.buf = true) :
    ∃ c', absorb v c = .ok c' := by
  rw [absorb_eq]
  exact storeFlush_completes hcur hf

variable (h : absorb v c = .ok c')
include h

theorem absorb_cursor_lt : c.blockIndex.toNat < 64 := by
  rw [absorb_eq] at h
  exact storeFlush_cursor_lt (c := { c with bitLength := c.bitLength + 8 }) h

theorem absorb_cursor : c'.blockIndex.toNat = (c.blockIndex.toNat + 1) % 64 := by
  rw [absorb_eq] at h
  rw [storeFlush_cursor h]

theorem absorb_bitLength (ho : lengthWouldOverflow c = false) : c'.bitLength.toNat = c.bitLength.toNat + 8 := by
  rw [absorb_eq] at h
  rw [storeFlush_bitLength h, count_succ ho]

theorem absorb_buf : c'.buf = c.buf.write c.blockIndex.toNat v := by
  rw [absorb_eq] at h
  rw [storeFlush_buf h]

theorem absorb_full (hf : Memory.full 64 c.buf = true) : Memory.full 64 c'.buf = true := by
  rw [absorb_buf h]
  exact Memory.full_write _ v hf

theorem absorb_hash (h63 : c.blockIndex.toNat < 63) : c'.hash = c.hash := by
  rw [absorb_eq] at h
  rw [storeFlush_hash h h63]

end

/-! ### One byte more -/

theorem lengthWouldOverflow_of_room {c : Context} (h : c.bitLength.toNat + 8 ≤ 2 ^ 64 - 1) :
    lengthWouldOverflow c = false := by
  rw [← Bool.not_eq_true, lengthWouldOverflow_iff]
  omega

/-- A byte that is absorbed hands the loop on to the bytes behind it. -/
theorem absorbAll_cons_of_absorb {v : Byte} {c c1 : Context} (vs : List Byte) (ho : lengthWouldOverflow c = false)
    (ha : absorb v c = .ok c1) : absorbAll (v :: vs) c = absorbAll vs c1 := by
  rw [absorbAll_cons, if_neg (by simp [ho]), ha, Except.bind]

/-- A byte the counter has no room for stops the loop (R114). -/
theorem absorbAll_cons_of_overflow {v : Byte} {c : Context} (vs : List Byte) (ho : lengthWouldOverflow c = true) :
    absorbAll (v :: vs) c = .ok (c, .inputTooLong) := by
  rw [absorbAll_cons, if_pos ho]

/-- When the loop answers, its first byte either stopped it or was stored and counted. -/
theorem absorbAll_cons_ok {v : Byte} {vs : List Byte} {c : Context} {r : Context × Status}
    (h : absorbAll (v :: vs) c = .ok r) :
    r = (c, .inputTooLong) ∨
      ∃ c1, absorb v c = .ok c1 ∧ absorbAll vs c1 = .ok r := by
  cases ho : lengthWouldOverflow c with
  | true =>
    rw [absorbAll_cons_of_overflow vs ho] at h
    exact .inl (Except.ok.inj h).symm
  | false =>
    cases ha : absorb v c with
    | error f =>
      rw [absorbAll_cons, ho, ha] at h
      cases h
    | ok c1 =>
      rw [absorbAll_cons_of_absorb vs ho ha] at h
      exact .inr ⟨c1, rfl, h⟩

/-! ### The whole payload -/

/-- With room in the counter the loop absorbs the whole payload: the cursor advances by its length modulo 64, the
counter by 8 for each byte (R110, R113). -/
theorem absorbAll_completes (pay : List Byte) {c : Context} (hcur : c.blockIndex.toNat < 64)
    (hf : Memory.full 64 c.buf = true) (hroom : c.bitLength.toNat + 8 * pay.length ≤ 2 ^ 64 - 1) :
    ∃ c', absorbAll pay c = .ok (c', .success) ∧
      c'.blockIndex.toNat = (c.blockIndex.toNat + pay.length) % 64 ∧
      c'.bitLength.toNat = c.bitLength.toNat + 8 * pay.length := by
  induction pay generalizing c with
  | nil => exact ⟨c, rfl, (Nat.mod_eq_of_lt hcur).symm, rfl⟩
  | cons v vs ih =>
    rw [List.length_cons] at hroom ⊢
    have ho : lengthWouldOverflow c = false := lengthWouldOverflow_of_room (by omega)
    obtain ⟨c1, ha⟩ := absorb_completes v hcur hf
    have hcur1 := absorb_cursor ha
    have hlen1 := absorb_bitLength ha ho
    obtain ⟨c', hl, hcur', hlen'⟩ := ih (by omega) (absorb_full ha hf) (by omega)
    refine ⟨c', ?_, by omega, by omega⟩
    rw [absorbAll_cons_of_absorb vs ho ha, hl]

/-- The loop absorbs a concatenation exactly when it absorbs the first part and then the second. -/
theorem absorbAll_append_success {xs ys : List Byte} {c c' : Context} :
    absorbAll (xs ++ ys) c = .ok (c', .success) ↔
      ∃ c1, absorbAll xs c = .ok (c1, .success) ∧ absorbAll ys c1 = .ok (c', .success) := by
  rw [absorbAll_append]
  cases hx : absorbAll xs c with
  | error f => simp [Except.bind]
  | ok r =>
    obtain ⟨c1, st⟩ := r
    obtain rfl | rfl := absorbAll_status xs _ _ _ hx <;> simp [Except.bind]

/-- Behind a part that is absorbed, a byte the counter has no room for stops the loop; it and all later bytes are
dropped (R114, R118). -/
theorem absorbAll_append_overflow {pre : List Byte} {c c1 : Context} (v : Byte) (post : List Byte)
    (hl : absorbAll pre c = .ok (c1, .success)) (ho : lengthWouldOverflow c1 = true) :
    absorbAll (pre ++ v :: post) c = .ok (c1, .inputTooLong) := by
  rw [absorbAll_append, hl, Except.bind, if_pos rfl, absorbAll_cons_of_overflow post ho]

/-! ### What the loop leaves unchanged -/

/-- Byte `k` of the payload goes to cursor `+ k`, modulo 64, if it is stored at all; no other byte of `BUF` changes. -/
theorem absorbAll_read_unstored {pay : List Byte} {c : Context} {r : Context × Status} {a : Nat}
    (h : absorbAll pay c = .ok r) (ha : ∀ k, k < pay.length → (c.blockIndex.toNat + k) % 64 ≠ a) :
    r.1.buf.read a = c.buf.read a := by
  induction pay generalizing c with
  | nil => rw [← Except.ok.inj h]
  | cons v vs ih =>
    obtain rfl | ⟨c1, hv, hl⟩ := absorbAll_cons_ok h
    · rfl
    have hlt := absorb_cursor_lt hv
    have hcur := absorb_cursor hv
    have hhere : a ≠ c.blockIndex.toNat := by
      have := ha 0 (Nat.succ_pos _)
      omega
    have hlater : ∀ k, k < vs.length → (c1.blockIndex.toNat + k) % 64 ≠ a := fun k hk => by
      have := ha (k + 1) (Nat.succ_lt_succ hk)
      omega
    rw [ih hl hlater, absorb_buf hv, Memory.read_write_ne _ _ hhere]

/-- A payload that ends below the end of the block leaves `H` alone (R115). -/
theorem absorbAll_hash_of_below {pay : List Byte} {c : Context} {r : Context × Status} (h : absorbAll pay c = .ok r)
    (hlen : c.blockIndex.toNat + pay.length < 64) : r.1.hash = c.hash := by
  induction pay generalizing c with
  | nil => rw [← Except.ok.inj h]
  | cons v vs ih =>
    rw [List.length_cons] at hlen
    obtain rfl | ⟨c1, hv, hl⟩ := absorbAll_cons_ok h
    · rfl
    have hcur := absorb_cursor hv
    rw [ih hl (by omega), absorb_hash hv (by omega)]

end Sys2Proof.Machine
end

section
/-! PROOFS. `APPEND` (R110 to R119): the next state of each case, the frame, and that a byte string may be cut into
pieces (R120). -/

namespace Sys2Proof.Machine

/-! ### The next state by what the byte loop answers -/

section
variable {pay : List Byte} {s : State} {c : Context} (ha : s.Accepts)
include ha

/-- An `APPEND` whose loop absorbs the payload leaves the loop's Context and `Success` (R110). -/
theorem exec_append_of_success (hl : absorbAll pay s.ctx = .ok (c, .success)) :
    exec (.append true pay) s = .next { s with ctx := c, status := 0 } := by
  rw [exec, execAppend_accepting ha, hl]
  rfl

/-- An `APPEND` whose loop is stopped leaves the loop's Context, corrupted, and `InputTooLong` (R118). -/
theorem exec_append_of_overflow (hl : absorbAll pay s.ctx = .ok (c, .inputTooLong)) :
    exec (.append true pay) s = .next { s with ctx := { c with corrupted := true }, status := 2 } := by
  rw [exec, execAppend_accepting ha, hl]
  rfl

/-- An `APPEND` that returns `Success` on an accepting context has absorbed its payload. -/
theorem absorbAll_of_exec_append {t : State} (h : exec (.append true pay) s = .next t) (hst : t.status = 0) :
    ∃ c, absorbAll pay s.ctx = .ok (c, .success) ∧ t = { s with ctx := c, status := 0 } := by
  cases hl : absorbAll pay s.ctx with
  | error f =>
    rw [exec, execAppend_accepting ha, hl] at h
    cases h
  | ok r =>
    obtain ⟨c, st⟩ := r
    obtain rfl | rfl := absorbAll_status pay _ _ _ hl
    · exact ⟨c, rfl, (Host.Outcome.next.inj ((exec_append_of_success ha hl).symm.trans h)).symm⟩
    · rw [← Host.Outcome.next.inj ((exec_append_of_overflow ha hl).symm.trans h)] at hst
      exact absurd hst (show (2 : BitVec 2) ≠ 0 by decide)

/-- A Context the loop leaves still accepts data. -/
theorem accepts_of_absorbAll {st : Status} (hl : absorbAll pay s.ctx = .ok (c, st)) (status : BitVec 2) :
    State.Accepts { s with ctx := c, status := status } := by
  obtain ⟨hi, hc, hx⟩ := ha
  exact ⟨hi, (absorbAll_computed hl).trans hc, (absorbAll_corrupted hl).trans hx⟩

end

/-! ### The empty payload and the errors on entry -/

/-- Settles O19: the test for the empty payload is the first one. -/
theorem appendEmpty : Obligations.AppendEmpty := execAppend_empty

/-- Settles O20: the test for the context reference is the next one. -/
theorem appendNullContext : Obligations.AppendNullContext := fun _ s hp => execAppend_null s hp

/-- Settles O21: the error entry on a valid context, its writes spelt out. -/
theorem appendStateError : Obligations.AppendStateError := by
  intro pay s hp hi hf
  rw [exec, execAppend_flagged hp hi hf, errorEntry_eq]
  rfl

/-! ### The byte loop -/

/-- Settles O22: the byte loop absorbs the payload and keeps the flags. -/
theorem appendSucceeds : Obligations.AppendSucceeds := by
  intro pay s ⟨_, hbuf, hctx⟩ ha hroom
  obtain ⟨hcur, -⟩ := hctx ha.1
  obtain ⟨c, hl, hcur', hlen'⟩ := absorbAll_completes pay hcur (Memory.full_of_wf hbuf) hroom
  obtain ⟨-, hcomp, hcorr⟩ := accepts_of_absorbAll ha hl 0
  exact ⟨_, exec_append_of_success ha hl, hcur', hlen', hcomp, hcorr, rfl⟩

/-- One byte with room in the counter: what it is stored as is the Context the command leaves. -/
theorem exec_append_byte {v : Byte} {s : State} {c : Context} (ha : s.Accepts)
    (hroom : s.ctx.bitLength.toNat + 8 ≤ 2 ^ 64 - 1)
    (hs : storeFlush v { s.ctx with bitLength := s.ctx.bitLength + 8 } = .ok c) :
    exec (.append true [v]) s = .next { s with ctx := c, status := 0 } := by
  refine exec_append_of_success ha ?_
  rw [absorbAll_cons_of_absorb [] (lengthWouldOverflow_of_room hroom) ((absorb_eq v s.ctx).trans hs), absorbAll_nil]

/-- Settles O23: below the end of the block the byte is only stored. -/
theorem appendByteInsideBlock : Obligations.AppendByteInsideBlock := fun _ _ ha hcur hroom =>
  exec_append_byte ha hroom (storeFlush_below hcur)

/-- Settles O24: at the end of the block the byte is stored and the block compressed. -/
theorem appendByteFillsBlock : Obligations.AppendByteFillsBlock := fun _ _ _ ha hcur hroom hblk =>
  exec_append_byte ha hroom (storeFlush_last (congrArg BitVec.toNat hcur) hblk)

/-- Settles O25: the loop absorbs the bytes in front, and the next byte finds no room in the counter they leave. -/
theorem appendOverflow : Obligations.AppendOverflow := by
  intro pre post v s ⟨_, hbuf, hctx⟩ ha hroom hover
  obtain ⟨hcur, -⟩ := hctx ha.1
  obtain ⟨c, hl, -, hlen⟩ := absorbAll_completes pre hcur (Memory.full_of_wf hbuf) hroom
  have ho : lengthWouldOverflow c = true := lengthWouldOverflow_iff.2 (by omega)
  exact ⟨_, exec_append_of_success ha hl, rfl, exec_append_of_overflow ha (absorbAll_append_overflow v post hl ho)⟩

/-- Settles O27, by the effects of an `APPEND`: only the byte loop writes more than `corrupted` and `STATUS`. -/
theorem appendFrame : Obligations.AppendFrame := by
  intro cv pay s t h
  cases exec_effect h with
  | empty | unmarked | marked => exact ⟨rfl, rfl, fun _ _ => rfl, fun _ => rfl⟩
  | absorbed _ _ _ _ hl | overflowed _ _ _ _ hl =>
    have hcomp := absorbAll_computed hl
    exact ⟨hcomp, rfl, fun _ => absorbAll_read_unstored hl, absorbAll_hash_of_below hl⟩

/-! ### Pieces of a byte string -/

/-- `FINISH` does not read `STATUS`, and writes it. -/
theorem exec_finish_withStatus (s : State) (status : BitVec 2) :
    exec (.finish true true) { s with status := status } = exec (.finish true true) s := rfl

/-- `APPEND`s of the pieces of a byte string that the loop absorbs leave the Context the loop leaves (R120). Only
`STATUS` depends on whether there are pieces at all. -/
theorem runCommands_appends_of_absorbAll (chunks : List (List Byte)) {s : State} {c : Context} (ha : s.Accepts)
    (hl : absorbAll chunks.flatten s.ctx = .ok (c, .success)) :
    ∃ status, runCommands (chunks.map (.append true)) s = .next { s with ctx := c, status := status } := by
  induction chunks generalizing s with
  | nil =>
    obtain rfl : s.ctx = c := congrArg Prod.fst (Except.ok.inj hl)
    exact ⟨s.status, rfl⟩
  | cons pay chunks ih =>
    obtain ⟨c1, hpay, hrest⟩ := absorbAll_append_success.1 hl
    obtain ⟨status, hrun⟩ := ih (s := { s with ctx := c1, status := 0 }) (accepts_of_absorbAll ha hpay 0) hrest
    exact ⟨status, by rw [List.map_cons, runCommands_cons_of_next (exec_append_of_success ha hpay), hrun]⟩

/-- Settles O26: the pieces leave the Context that the whole byte string leaves, and the two states differ at most in
`STATUS`, which `FINISH` does not read. -/
theorem chunkingInvariance : Obligations.ChunkingInvariance := by
  intro chunks s u ha hu hst
  obtain ⟨c, hl, rfl⟩ := absorbAll_of_exec_append ha hu hst
  obtain ⟨status, hrun⟩ := runCommands_appends_of_absorbAll chunks ha hl
  refine ⟨_, hrun, rfl, rfl, fun u' hfin => ?_⟩
  rw [exec_finish_withStatus { s with ctx := c }] at hfin ⊢
  exact hfin

end Sys2Proof.Machine
end

section
/-! PROOFS. The word operators of the transform (R135, R136, R141 to R143): rotations as the library's, on numbers and
on bits, the adders on numbers, the round functions bit by bit. -/

namespace Sys2Proof.Machine

/-! ### Rotations -/

theorem rotl_eq_rotateLeft {n : Nat} (h : n < 32) (x : Word) : rotl n x = x.rotateLeft n :=
  (BitVec.rotateLeft_eq_rotateLeftAux_of_lt h).symm

/-- The bits that leave at the top come back at the bottom, where the shift has made room for them. -/
theorem toNat_rotl {n : Nat} (h : n < 32) (x : Word) :
    (rotl n x).toNat = (x.toNat * 2 ^ n) % 2 ^ 32 + x.toNat / 2 ^ (32 - n) := by
  have hlow : x.toNat / 2 ^ (32 - n) < 2 ^ n := by
    rw [Nat.div_lt_iff_lt_mul (by positivity), ← pow_add, show n + (32 - n) = 32 by omega]
    exact x.isLt
  have hhigh : (x.toNat * 2 ^ n) % 2 ^ 32 = 2 ^ n * (x.toNat % 2 ^ (32 - n)) := by
    rw [← Nat.mul_mod_mul_left, ← pow_add, show n + (32 - n) = 32 by omega, Nat.mul_comm]
  rw [rotl, BitVec.toNat_or, BitVec.toNat_shiftLeft, BitVec.toNat_ushiftRight, Nat.shiftLeft_eq,
    Nat.shiftRight_eq_div_pow, hhigh, Nat.two_pow_add_eq_or_of_lt hlow]

/-- Every bit of a rotation is one bit of the word. -/
theorem rotl_xor {n : Nat} (h : n < 32) (x y : Word) : rotl n (x ^^^ y) = rotl n x ^^^ rotl n y := by
  simp only [rotl_eq_rotateLeft h]
  ext i hi
  simp only [BitVec.getElem_xor, BitVec.getElem_rotateLeft]
  split <;> rfl

/-- Settles O30: the rotated-out bits add to the shifted word, and 30 to the left is 2 to the right. -/
theorem rotationsAreCircular : Obligations.RotationsAreCircular :=
  ⟨fun _ x _ hn => toNat_rotl hn x, fun x => BitVec.or_comm (x <<< 30) (x >>> 2)⟩

/-! ### Adders -/

theorem toNat_add32x5 (a b c d e : Word) :
    (add32x5 a b c d e).toNat = (a.toNat + b.toNat + c.toNat + d.toNat + e.toNat) % 2 ^ 32 := by
  simp only [add32x5, BitVec.toNat_add, Nat.mod_add_mod]

/-- Settles O31: a wrap between two additions does not show in the sum modulo `2^32`. -/
theorem addersWrap : Obligations.AddersWrap := ⟨BitVec.toNat_add, toNat_add32x5⟩

/-! ### Round functions -/

section
variable (x y z : Word) {i : Nat} (hi : i < 32)

include hi in
theorem getLsbD_choose : (choose x y z).getLsbD i = if x.getLsbD i then y.getLsbD i else z.getLsbD i := by
  simp only [choose, BitVec.getLsbD_or, BitVec.getLsbD_and, BitVec.getLsbD_not, hi]
  cases x.getLsbD i <;> simp

theorem getLsbD_parity :
    (parity x y z).getLsbD i =
      decide (((x.getLsbD i).toNat + (y.getLsbD i).toNat + (z.getLsbD i).toNat) % 2 = 1) := by
  simp only [parity, BitVec.getLsbD_xor]
  generalize x.getLsbD i = p, y.getLsbD i = q, z.getLsbD i = r
  decide +revert

theorem getLsbD_majority :
    (majority x y z).getLsbD i =
      decide ((x.getLsbD i).toNat + (y.getLsbD i).toNat + (z.getLsbD i).toNat ≥ 2) := by
  simp only [majority, BitVec.getLsbD_or, BitVec.getLsbD_and]
  generalize x.getLsbD i = p, y.getLsbD i = q, z.getLsbD i = r
  decide +revert

end

/-- Settles O32: each function works on the bit positions one by one. -/
theorem roundFunctionsBitwise : Obligations.RoundFunctionsBitwise := fun x y z _ hi =>
  ⟨getLsbD_choose x y z hi, getLsbD_parity x y z, getLsbD_majority x y z⟩

end Sys2Proof.Machine
end

section
/-! PROOFS. The message schedule (R131 to R133): the words of a block, the words the expansion adds, and that both
commute with XOR. -/

namespace Sys2Proof.Machine

/-! ### The words of a block -/

theorem toNat_wordOfBytes (b0 b1 b2 b3 : Byte) :
    (wordOfBytes b0 b1 b2 b3).toNat = b0.toNat * 2 ^ 24 + b1.toNat * 2 ^ 16 + b2.toNat * 2 ^ 8 + b3.toNat := by
  simp only [wordOfBytes, beNat, List.foldl_cons, List.foldl_nil, BitVec.toNat_ofNat]
  omega

theorem wordOfBytes_eq_append (b0 b1 b2 b3 : Byte) : wordOfBytes b0 b1 b2 b3 = b0 ++ b1 ++ b2 ++ b3 := by
  apply BitVec.eq_of_toNat_eq
  simp only [BitVec.toNat_append]
  rw [toNat_wordOfBytes, ← Nat.shiftLeft_add_eq_or_of_lt b1.isLt, ← Nat.shiftLeft_add_eq_or_of_lt b2.isLt,
    ← Nat.shiftLeft_add_eq_or_of_lt b3.isLt]
  simp only [Nat.shiftLeft_eq]
  omega

theorem wordOfBytes_xor (b0 b1 b2 b3 c0 c1 c2 c3 : Byte) :
    wordOfBytes (b0 ^^^ c0) (b1 ^^^ c1) (b2 ^^^ c2) (b3 ^^^ c3) =
      wordOfBytes b0 b1 b2 b3 ^^^ wordOfBytes c0 c1 c2 c3 := by
  have happend : (b0 ++ b1 ++ b2 ++ b3 : BitVec (8 + 8 + 8 + 8)) ^^^ (c0 ++ c1 ++ c2 ++ c3) =
      (b0 ^^^ c0) ++ (b1 ^^^ c1) ++ (b2 ^^^ c2) ++ (b3 ^^^ c3) := by simp only [BitVec.xor_append]
  simpa only [wordOfBytes_eq_append] using happend.symm

theorem length_blockWords : ∀ bs : List Byte, (blockWords bs).length = bs.length / 4
  | _ :: _ :: _ :: _ :: bs => by simp only [blockWords, List.length_cons, length_blockWords bs]; omega
  | [] | [_] | [_, _] | [_, _, _] => by simp [blockWords]

theorem getD_blockWords : ∀ {bs : List Byte} {t : Nat}, t < bs.length / 4 →
    (blockWords bs).getD t 0 =
      wordOfBytes (bs.getD (4 * t) 0) (bs.getD (4 * t + 1) 0) (bs.getD (4 * t + 2) 0) (bs.getD (4 * t + 3) 0)
  | _ :: _ :: _ :: _ :: _, 0, _ => rfl
  | _ :: _ :: _ :: _ :: bs, t + 1, h => getD_blockWords (bs := bs) (by simp only [List.length_cons] at h; omega)
  | [], _, h | [_], _, h | [_, _], _, h | [_, _, _], _, h => by simp at h

/-! ### The words the expansion adds -/

theorem length_extendSchedule (n : Nat) (w : List Word) : (extendSchedule n w).length = w.length + n := by
  induction n generalizing w with
  | zero => rfl
  | succ n ih => simp only [extendSchedule, ih, List.length_append, List.length_singleton]; omega

/-- The expansion keeps the words it has. -/
theorem getD_extendSchedule_of_lt (n : Nat) {w : List Word} {t : Nat} (h : t < w.length) :
    (extendSchedule n w).getD t 0 = w.getD t 0 := by
  induction n generalizing w with
  | zero => rfl
  | succ n ih =>
    rw [extendSchedule, ih (by rw [List.length_append]; omega), List.getD_append _ _ _ _ h]

/-- A word is added by the rule of R132 on words that the rest of the expansion keeps. -/
theorem getD_extendSchedule_of_le {n : Nat} {w : List Word} {t : Nat} (h0 : 0 < w.length) (h : w.length ≤ t)
    (ht : t < w.length + n) :
    (extendSchedule n w).getD t 0 =
      rotl 1 ((extendSchedule n w).getD (t - 3) 0 ^^^ (extendSchedule n w).getD (t - 8) 0 ^^^
        (extendSchedule n w).getD (t - 14) 0 ^^^ (extendSchedule n w).getD (t - 16) 0) := by
  induction n generalizing w with
  | zero => omega
  | succ n ih =>
    obtain rfl | hlt := h.eq_or_lt
    · have hkeep (k : Nat) (hk : 0 < k) := getD_extendSchedule_of_lt (n + 1) (show w.length - k < w.length by omega)
      rw [hkeep 3 (by decide), hkeep 8 (by decide), hkeep 14 (by decide), hkeep 16 (by decide), extendSchedule,
        getD_extendSchedule_of_lt n (by simp), List.getD_append_right _ _ _ _ (Nat.le_refl _), Nat.sub_self]
      rfl
    · have hlen : (w ++ [nextScheduleWord w]).length = w.length + 1 := List.length_append
      exact ih (by omega) (by omega) (by omega)

/-! ### The schedule -/

section
variable {blk : List Byte} (hblk : blk.length = 64)
include hblk

theorem length_blockWords_of_block : (blockWords blk).length = 16 := by rw [length_blockWords, hblk]

theorem length_schedule : (schedule blk).length = 80 := by
  rw [schedule, length_extendSchedule, length_blockWords_of_block hblk]
  rfl

theorem getD_schedule_of_lt {t : Nat} (ht : t < 16) :
    (schedule blk).getD t 0 =
      wordOfBytes (blk.getD (4 * t) 0) (blk.getD (4 * t + 1) 0) (blk.getD (4 * t + 2) 0) (blk.getD (4 * t + 3) 0) := by
  rw [schedule, getD_extendSchedule_of_lt _ (by rwa [length_blockWords_of_block hblk]), getD_blockWords (by omega)]

end

/-- Settles O28: the first words are the block's, each later one is added by the rule and then kept. -/
theorem scheduleWords : Obligations.ScheduleWords := by
  intro blk hblk
  have hlen := length_blockWords_of_block hblk
  refine ⟨length_schedule hblk, fun t ht => ?_, fun t ht ht' => ?_⟩
  · rw [getD_schedule_of_lt hblk ht, toNat_wordOfBytes]
  · exact getD_extendSchedule_of_le (by omega) (by omega) (by rw [hlen]; exact ht')

/-! ### XOR -/

/-- Beyond the ends both sides are the XOR of two zeros. -/
theorem getD_zipWith_xor {w w' : List Word} (h : w.length = w'.length) (i : Nat) :
    (List.zipWith (· ^^^ ·) w w').getD i 0 = w.getD i 0 ^^^ w'.getD i 0 := by
  by_cases hi : i < w.length
  · rw [List.getD_eq_getElem _ _ (by simpa [← h] using hi), List.getElem_zipWith, List.getD_eq_getElem _ _ hi,
      List.getD_eq_getElem _ _ (h ▸ hi)]
  · rw [List.getD_eq_default _ _ (by simp; omega), List.getD_eq_default _ _ (by omega),
      List.getD_eq_default _ _ (by omega)]
    rfl

theorem zipWith_xor_self (w : List Word) : List.zipWith (· ^^^ ·) w w = List.replicate w.length 0 := by
  simp only [List.zipWith_self, BitVec.xor_self, List.map_const']
  rfl

theorem blockWords_zipWith_xor : ∀ {bs cs : List Byte}, bs.length = cs.length →
    blockWords (List.zipWith (· ^^^ ·) bs cs) = List.zipWith (· ^^^ ·) (blockWords bs) (blockWords cs)
  | b0 :: b1 :: b2 :: b3 :: bs, c0 :: c1 :: c2 :: c3 :: cs, h => by
    simp only [List.zipWith_cons_cons, blockWords, wordOfBytes_xor,
      blockWords_zipWith_xor (bs := bs) (cs := cs) (by simpa using h)]
  | [], [], _ | [_], [_], _ | [_, _], [_, _], _ | [_, _, _], [_, _, _], _ => rfl

section
variable {w w' : List Word} (h : w.length = w'.length)
include h

theorem nextScheduleWord_zipWith_xor :
    nextScheduleWord (List.zipWith (· ^^^ ·) w w') = nextScheduleWord w ^^^ nextScheduleWord w' := by
  have hlen : (List.zipWith (· ^^^ ·) w w').length = w.length := by rw [List.length_zipWith, ← h, Nat.min_self]
  simp only [nextScheduleWord, hlen, ← h, getD_zipWith_xor h, ← rotl_xor (n := 1) (by decide)]
  congr 1
  ac_rfl

theorem extendSchedule_zipWith_xor (n : Nat) :
    extendSchedule n (List.zipWith (· ^^^ ·) w w') =
      List.zipWith (· ^^^ ·) (extendSchedule n w) (extendSchedule n w') := by
  induction n generalizing w w' with
  | zero => rfl
  | succ n ih =>
    simp only [extendSchedule, nextScheduleWord_zipWith_xor h]
    rw [← ih (by simp [h]), List.zipWith_append h]
    rfl

end

theorem schedule_zipWith_xor {blk blk' : List Byte} (h : blk.length = blk'.length) :
    schedule (List.zipWith (· ^^^ ·) blk blk') = List.zipWith (· ^^^ ·) (schedule blk) (schedule blk') := by
  rw [schedule, blockWords_zipWith_xor h, extendSchedule_zipWith_xor (by simp only [length_blockWords, h])]
  rfl

/-- Settles O29: words and expansion commute with XOR; a block of zeros is its own XOR with itself. -/
theorem scheduleIsLinear : Obligations.ScheduleIsLinear := by
  refine ⟨fun blk blk' h h' => schedule_zipWith_xor (h.trans h'.symm), ?_⟩
  have hself := schedule_zipWith_xor (blk := List.replicate 64 0x00) rfl
  rwa [zipWith_xor_self, length_schedule rfl] at hself

end Sys2Proof.Machine
end

section
/-! PROOFS. The rounds and the transform (R134, R137 to R140, R144 to R146, R148): the selectors by stage, one round
after another, the earlier values of `A`, and the feed-forward. -/

namespace Sys2Proof.Machine

/-! ### Selectors -/

theorem stage_eq {t k : Nat} (h : 20 * k ≤ t) (h' : t < 20 * (k + 1)) : stage t = k :=
  Nat.div_eq_of_lt_le (by omega) (by omega)

/-- Settles O33: the selectors read the round only through its stage. -/
theorem selectorTable : Obligations.SelectorTable := by
  intro t b c d ht
  refine ⟨fun h => ?_, fun h h' => ?_, fun h h' => ?_, fun h => ?_⟩
  · simp [roundFunction, roundConstant, stage_eq (k := 0) (Nat.zero_le t) h]
  · simp [roundFunction, roundConstant, stage_eq (k := 1) h h']
  · simp [roundFunction, roundConstant, stage_eq (k := 2) h h']
  · simp [roundFunction, roundConstant, stage_eq (k := 3) h ht]

/-! ### Rounds -/

theorem roundsFrom_append (t : Nat) (xs ys : List Word) (v : Work) :
    roundsFrom t (xs ++ ys) v = roundsFrom (t + xs.length) ys (roundsFrom t xs v) := by
  induction xs generalizing t v with
  | nil => rfl
  | cons x xs ih => simp only [List.cons_append, roundsFrom, ih, List.length_cons, Nat.add_assoc, Nat.add_comm 1]

theorem afterRound_zero {w : List Word} (v : Work) (h : 0 < w.length) :
    afterRound w v 0 = runRound 0 (w.getD 0 0) v := by
  cases w with
  | nil => exact absurd h (Nat.lt_irrefl 0)
  | cons x xs => rfl

theorem afterRound_succ {w : List Word} (v : Work) {t : Nat} (h : t + 1 < w.length) :
    afterRound w v (t + 1) = runRound (t + 1) (w.getD (t + 1) 0) (afterRound w v t) := by
  have hlen : (w.take (t + 1)).length = t + 1 := List.length_take_of_le (by omega)
  rw [afterRound, ← List.take_append_getElem h, roundsFrom_append, hlen, Nat.zero_add, ← List.getD_eq_getElem w 0 h]
  rfl

/-- Settles O34: a round more is the round formula on the state so far. -/
theorem roundsInOrder : Obligations.RoundsInOrder :=
  ⟨fun _ v h => afterRound_zero v h, fun _ v _ h => afterRound_succ v h⟩

/-! ### Earlier values of `A` -/

section
variable {w : List Word} (v : Work) {t : Nat} (h : t + 1 < w.length)
include h

theorem afterRound_succ_b : (afterRound w v (t + 1)).b = (afterRound w v t).a :=
  congrArg Work.b (afterRound_succ v h)

theorem afterRound_succ_c : (afterRound w v (t + 1)).c = rotl 30 (afterRound w v t).b :=
  congrArg Work.c (afterRound_succ v h)

theorem afterRound_succ_d : (afterRound w v (t + 1)).d = (afterRound w v t).c :=
  congrArg Work.d (afterRound_succ v h)

theorem afterRound_succ_e : (afterRound w v (t + 1)).e = (afterRound w v t).d :=
  congrArg Work.e (afterRound_succ v h)

end

/-- Settles O35: `A` moves to `B`, is rotated into `C`, and moves on to `D` and `E`, a place a round. -/
theorem workingVariablesAreEarlierA : Obligations.WorkingVariablesAreEarlierA := by
  intro w v t ht hlen
  obtain ⟨k, rfl⟩ := Nat.exists_eq_add_of_le' ht
  have h1 : k + 1 < w.length := by omega
  have h2 : k + 1 + 1 < w.length := by omega
  have h3 : k + 2 + 1 < w.length := by omega
  refine ⟨afterRound_succ_b v hlen, ?_, ?_, ?_⟩
  · rw [afterRound_succ_c v hlen, afterRound_succ_b v h3]; rfl
  · rw [afterRound_succ_d v hlen, afterRound_succ_c v h3, afterRound_succ_b v h2]; rfl
  · rw [afterRound_succ_e v hlen, afterRound_succ_d v h3, afterRound_succ_c v h2, afterRound_succ_b v h1]; rfl

/-! ### The transform -/

/-- After the last round all schedule words are used. -/
theorem afterRound_last {w : List Word} (v : Work) {t : Nat} (h : w.length ≤ t + 1) :
    afterRound w v t = roundsFrom 0 w v := by
  rw [afterRound, List.take_of_length_le h]

/-- Settles O36: the schedule has 80 words, so round 79 is the last. -/
theorem compressIsRoundsPlusFeedForward : Obligations.CompressIsRoundsPlusFeedForward := by
  intro h blk hblk
  rw [afterRound_last _ (length_schedule hblk).le, compress]
  rfl

end Sys2Proof.Machine
end

section
/-! PROOFS. `FINISH` (R160 to R175): the padding path answers and what it leaves of `BUF`, the next state of each case,
the frame, and the digest of a message. -/

namespace Sys2Proof.Machine

/-! ### The padding path answers -/

/-- From a cursor in 0..63 and a buffer whose bytes all have a value, a run of stored bytes answers; the cursor advances
by its length modulo 64 (R113, R115, R163). -/
theorem storeFlushAll_completes (bs : List Byte) {c : Context} (hcur : c.blockIndex.toNat < 64)
    (hf : Memory.full 64 c.buf = true) :
    ∃ c', storeFlushAll bs c = .ok c' ∧ c'.blockIndex.toNat = (c.blockIndex.toNat + bs.length) % 64 := by
  induction bs generalizing c with
  | nil => exact ⟨c, rfl, (Nat.mod_eq_of_lt hcur).symm⟩
  | cons v vs ih =>
    obtain ⟨c1, hs⟩ := storeFlush_completes (v := v) hcur hf
    have hcur1 := storeFlush_cursor hs
    obtain ⟨c', ha, hcur'⟩ := ih (by omega) (storeFlush_full hs hf)
    refine ⟨c', ?_, by rw [List.length_cons]; omega⟩
    rw [storeFlushAll_cons, hs]
    exact ha

/-- The marker and the zeros take the cursor to the length field (R165). -/
theorem padBlock_completes {c : Context} (hcur : c.blockIndex.toNat < 64) (hf : Memory.full 64 c.buf = true) :
    ∃ c', padBlock c = .ok c' ∧ c'.blockIndex.toNat = 56 := by
  rw [padBlock_eq_storeFlushAll hcur]
  obtain ⟨c', hp, hcur'⟩ := storeFlushAll_completes
    (0x80 :: List.replicate (padZeros c.blockIndex.toNat) 0x00) hcur hf
  have hz : padZeros c.blockIndex.toNat = (55 + 64 - c.blockIndex.toNat) % 64 := rfl
  rw [List.length_cons, List.length_replicate] at hcur'
  exact ⟨c', hp, by omega⟩

section
variable {c c' : Context}

theorem padBlock_computed (h : padBlock c = .ok c') : c'.computed = c.computed :=
  padBlock_keeps (P := fun x => x.computed = c.computed) (fun _ _ _ hx hs => (storeFlush_computed hs).trans hx) rfl h

theorem padBlock_full (h : padBlock c = .ok c') (hf : Memory.full 64 c.buf = true) : Memory.full 64 c'.buf = true :=
  padBlock_keeps (P := fun x => Memory.full 64 x.buf = true) (fun _ _ _ hx hs => storeFlush_full hs hx) hf h

/-- The padding engine stores below address 64 only. -/
theorem padBlock_read_outside {a : Nat} (h : padBlock c = .ok c') (ha : 64 ≤ a) : c'.buf.read a = c.buf.read a :=
  padBlock_keeps (P := fun x => x.buf.read a = c.buf.read a) (fun _ x _ hx hs => by
    have hlt := storeFlush_cursor_lt hs
    rw [storeFlush_buf hs, Memory.read_write_ne _ _ (by omega), hx]) rfl h

/-- From a cursor in 0..63 and a buffer whose bytes all have a value, the padding path answers. -/
theorem finalize_completes (hcur : c.blockIndex.toNat < 64) (hf : Memory.full 64 c.buf = true) :
    ∃ c', finalize c = .ok c' := by
  obtain ⟨c1, hp, -⟩ := padBlock_completes hcur hf
  obtain ⟨blk, hb, -⟩ := compressBlock_completes (insertLength_full (padBlock_full hp hf))
  exact ⟨_, finalize_ok.2 ⟨c1, blk, hp, hb, rfl⟩⟩

/-- The padding path wipes the 64 bytes of `BUF` and stores nowhere else (R169). -/
theorem finalize_read {a : Nat} (h : finalize c = .ok c') :
    c'.buf.read a = if a < 64 then some 0x00 else c.buf.read a := by
  obtain ⟨c1, blk, hp, -, rfl⟩ := finalize_ok.1 h
  rw [cleanUp_buf, Memory.read_zeroBuf, insertLength_buf]
  split
  · rfl
  · rw [read_memWrite_outside _ _ (by omega), padBlock_read_outside hp (by omega)]

end

/-- Settles O40: the engine is that run of stored bytes, and no stored byte writes the counter or the flags. -/
theorem paddingBytesStored : Obligations.PaddingBytesStored := by
  intro c hcur hf
  obtain ⟨c', hp, h56⟩ := padBlock_completes hcur hf
  exact ⟨c', hp, (padBlock_eq_storeFlushAll hcur).symm.trans hp, h56, padBlock_bitLength hp, padBlock_computed hp,
    padBlock_corrupted hp⟩

/-! ### The next state of each case -/

/-- Settles O37: the error entry without and with a context to mark. -/
theorem finishNullReference : Obligations.FinishNullReference := fun s =>
  ⟨fun ov => execFinish_null ov s, execFinish_noOutput⟩

/-- Settles O38: the error entry marks a Context that is already marked. -/
theorem finishCorrupted : Obligations.FinishCorrupted := by
  intro s hi hx
  rw [exec, execFinish_corrupted hi hx, errorEntry, setCorrupted_of_corrupted _ hx]
  rfl

/-- Settles O39: `RESERIALIZE` delivers the digest of the Context as it stands, `STATE_ERROR` is the error entry. -/
theorem finishComputed : Obligations.FinishComputed := fun _ hi hx hc =>
  ⟨fun hp => ⟨_, execFinish_again hi hx hc hp, readBytes_serialise _ _, rfl⟩, execFinish_againRefused hi hx hc⟩

/-- Settles O43: the padding path answers, and the digest of the Context it leaves is delivered. -/
theorem finishSucceeds : Obligations.FinishSucceeds := by
  intro s ⟨_, hbuf, hctx⟩ ha
  have ⟨hi, _, hx⟩ := ha
  obtain ⟨hcur, -⟩ := hctx hi
  obtain ⟨c, hf⟩ := finalize_completes hcur (Memory.full_of_wf hbuf)
  have hexec : exec (.finish true true) s = .next (deliverDigest { s with ctx := c }) := by
    rw [exec, execFinish_accepting ha, hf]
  exact ⟨_, hexec, finalize_bitLength hf, finalize_blockIndex hf, fun a h64 => (finalize_read hf).trans (if_pos h64),
    finalize_computed hf, (finalize_corrupted hf).trans hx, readBytes_serialise _ _, rfl⟩

/-! ### The frame -/

/-- Settles O44, by the effects of `FINISH`: an error writes `corrupted` and `STATUS`, and only the padding path writes
more of the Context. -/
theorem finishFrame : Obligations.FinishFrame := by
  intro cv ov s t h
  cases exec_effect h with
  | unmarked | marked => exact ⟨rfl, rfl, fun _ => ⟨rfl, rfl⟩, fun _ _ => rfl, fun _ _ => rfl⟩
  | delivered =>
    exact ⟨rfl, rfl, fun hst => absurd rfl hst, fun _ _ => rfl, fun _ ha => read_serialise_outside _ _ ha⟩
  | finished _ _ _ hf =>
    exact ⟨finalize_bitLength hf, rfl, fun hst => absurd rfl hst,
      fun _ ha => (finalize_read hf).trans (if_neg (by omega)), fun _ ha => read_serialise_outside _ _ ha⟩

/-! ### The digest function -/

/-- Settles O57: `INIT` starts the empty message, the `APPEND`s extend it to the whole one, and `FINISH` completes the
padded message and delivers the fold over its blocks. -/
theorem digestOfMessage : Obligations.DigestOfMessage := fun _ chunks hs hlen => runCommands_digest chunks hs hlen

end Sys2Proof.Machine
end

section
/-! PROOFS. The lifecycle (R29, R180 to R186): the lifecycle state read off the flags, where the byte loop of `APPEND`
stops for want of room in the counter, and the rows of the transition table. -/

namespace Sys2Proof.Machine

/-! ### The lifecycle states -/

section
variable {s : State}

theorem lifecycle_of_corrupted (hi : s.initialised = true) (hx : s.ctx.corrupted = true) :
    s.lifecycle = .corrupted := by
  simp [State.lifecycle, hi, hx]

theorem lifecycle_of_computed (hi : s.initialised = true) (hx : s.ctx.corrupted = false)
    (hc : s.ctx.computed = true) : s.lifecycle = .computed := by
  simp [State.lifecycle, hi, hx, hc]

/-- `Fresh` and `Accepting` are the two states in which a context accepts data (R29, R180). -/
theorem lifecycle_of_accepts (ha : s.Accepts) : s.lifecycle = .fresh ∨ s.lifecycle = .accepting := by
  obtain ⟨hi, hc, hx⟩ := ha
  simp only [State.lifecycle, hi, hx, hc, Bool.not_true, Bool.false_eq_true, if_false]
  split
  · exact .inl rfl
  · exact .inr rfl

/-- A context that has counted a byte is no longer `Fresh` (R182). -/
theorem lifecycle_of_counted (ha : s.Accepts) (hlen : 0 < s.ctx.bitLength.toNat) : s.lifecycle = .accepting := by
  obtain ⟨hi, hc, hx⟩ := ha
  have hne : ¬ s.ctx.bitLength = 0#64 := fun h0 => by simp [h0] at hlen
  simp [State.lifecycle, hi, hx, hc, hne]

/-- The lifecycle states of an initialised context, by the two flags. -/
theorem lifecycle_cases_of_initialised (hi : s.initialised = true) :
    (s.ctx.corrupted = true ∧ s.lifecycle = .corrupted) ∨
    (s.ctx.corrupted = false ∧ s.ctx.computed = true ∧ s.lifecycle = .computed) ∨
    (s.Accepts ∧ (s.lifecycle = .fresh ∨ s.lifecycle = .accepting)) := by
  cases hx : s.ctx.corrupted with
  | true => exact .inl ⟨rfl, lifecycle_of_corrupted hi hx⟩
  | false =>
    cases hc : s.ctx.computed with
    | true => exact .inr (.inl ⟨rfl, rfl, lifecycle_of_computed hi hx hc⟩)
    | false => exact .inr (.inr ⟨⟨hi, hc, hx⟩, lifecycle_of_accepts ⟨hi, hc, hx⟩⟩)

theorem lifecycle_ne_uninitialised (hi : s.initialised = true) : s.lifecycle ≠ .uninitialised := by
  obtain ⟨-, hl⟩ | ⟨-, -, hl⟩ | ⟨-, hl | hl⟩ := lifecycle_cases_of_initialised hi <;> simp [hl]

/-- The error entry corrupts the initialised context it refers to (R185). -/
theorem errorEntry_true_lifecycle (st : Status) (hi : s.initialised = true) :
    (errorEntry true st s).lifecycle = .corrupted :=
  lifecycle_of_corrupted hi rfl

end

/-- `INIT` starts a `Fresh` context from any state (R184). -/
theorem recover_lifecycle (s : State) : (recover s).lifecycle = .fresh := by
  simp [State.lifecycle]

/-! ### The byte loop without room in the counter -/

/-- Where the payload would take the counter past its end, the loop stops with `InputTooLong` (R114, R118). -/
theorem absorbAll_overflows (pay : List Byte) {c : Context} (hcur : c.blockIndex.toNat < 64)
    (hf : Memory.full 64 c.buf = true) (hover : c.bitLength.toNat + 8 * pay.length > 2 ^ 64 - 1) :
    ∃ c', absorbAll pay c = .ok (c', .inputTooLong) := by
  induction pay generalizing c with
  | nil =>
    have hlt := c.bitLength.isLt
    rw [List.length_nil] at hover
    omega
  | cons v vs ih =>
    cases ho : lengthWouldOverflow c with
    | true => exact ⟨c, absorbAll_cons_of_overflow vs ho⟩
    | false =>
      obtain ⟨c1, ha⟩ := absorb_completes v hcur hf
      have hcur1 := absorb_cursor ha
      have hlen1 := absorb_bitLength ha ho
      rw [absorbAll_cons_of_absorb vs ho ha]
      rw [List.length_cons] at hover
      exact ih (by omega) (absorb_full ha hf) (by omega)

/-! ### The rows of the table -/

/-- The command answers as a row of the table says: with the row's status and state on exit, or, where the table has no
row, by the refusal of R241. -/
def AnswersRow (i : Instr) (s : State) : Option (Status × Lifecycle) → Prop
  | some (st, l) => ∃ t, exec i s = .next t ∧ t.status = statusCode st ∧ t.lifecycle = l
  | none => exec i s = .refused .uninitialisedContext

theorem answersRow_of_next {i : Instr} {s t : State} {st : Status} {l : Lifecycle} (he : exec i s = .next t)
    (hst : t.status = statusCode st) (hl : t.lifecycle = l) : AnswersRow i s (some (st, l)) :=
  ⟨t, he, hst, hl⟩

/-- An error that the command marks on an initialised context answers as a row that ends `Corrupted` (R185). -/
theorem answersRow_of_marked {i : Instr} {s : State} {st : Status} (hi : s.initialised = true)
    (he : exec i s = .next (errorEntry true st s)) : AnswersRow i s (some (st, .corrupted)) :=
  answersRow_of_next he (errorEntry_status _ _ _) (errorEntry_true_lifecycle st hi)

/-- An error with no context to mark leaves the lifecycle state as it was. -/
theorem answersRow_of_unmarked {i : Instr} {s : State} {st : Status}
    (he : exec i s = .next (errorEntry false st s)) : AnswersRow i s (some (st, s.lifecycle)) :=
  answersRow_of_next he (errorEntry_status _ _ _) rfl

/-- The rows of `INIT` (R184). -/
theorem init_answersRow (policy : FinishPolicy) (overflow cv : Bool) (s : State) :
    AnswersRow (.init cv) s (transition policy overflow s.lifecycle (.init cv)) := by
  cases cv with
  | true => exact answersRow_of_next (execInit_true s) (returnStatus_status _ _) (recover_lifecycle s)
  | false => exact answersRow_of_unmarked rfl

/-- The rows of a non-empty `APPEND` on an accepting context, with room in the counter and without (R182, R185). -/
theorem append_answersRow_of_accepts {pay : List Byte} {s : State} (hs : s.Inv) (hp : pay ≠ []) (ha : s.Accepts) :
    AnswersRow (.append true pay) s
      (if overflows s (.append true pay) then some (.inputTooLong, .corrupted) else some (.success, .accepting)) := by
  split
  case isTrue hover =>
    obtain ⟨-, hbuf, hctx⟩ := hs
    obtain ⟨hcur, -⟩ := hctx ha.1
    obtain ⟨c, hl⟩ := absorbAll_overflows pay hcur (Memory.full_of_wf hbuf) (of_decide_eq_true hover)
    exact answersRow_of_next (exec_append_of_overflow ha hl) rfl (lifecycle_of_corrupted ha.1 rfl)
  case isFalse hover =>
    have hroom : s.ctx.bitLength.toNat + 8 * pay.length ≤ 2 ^ 64 - 1 :=
      Nat.le_of_not_gt fun h => hover (decide_eq_true h)
    obtain ⟨t, he, -, hlen, hc, hx, ht⟩ := appendSucceeds pay s hs ha hroom
    have hi : t.initialised = true := (congrArg State.initialised ht).trans ha.1
    have hpos := List.length_pos_of_ne_nil hp
    exact answersRow_of_next he (congrArg State.status ht) (lifecycle_of_counted ⟨hi, hc, hx⟩ (by omega))

/-- The rows of `APPEND` (R182, R185, R186). -/
theorem append_answersRow (policy : FinishPolicy) (cv : Bool) (pay : List Byte) {s : State} (hs : s.Inv) :
    AnswersRow (.append cv pay) s
      (transition policy (overflows s (.append cv pay)) s.lifecycle (.append cv pay)) := by
  by_cases hp : pay = []
  · subst hp
    exact answersRow_of_next (execAppend_empty cv s) (returnStatus_status _ _) rfl
  cases cv with
  | false =>
    simp only [transition, if_neg hp, if_true]
    exact answersRow_of_unmarked (execAppend_null s hp)
  | true =>
    simp only [transition, if_neg hp, Bool.true_eq_false, if_false]
    cases hi : s.initialised with
    | false =>
      rw [lifecycle_of_uninitialised hi]
      exact execAppend_uninitialised hp hi
    | true =>
      obtain ⟨hx, hl⟩ | ⟨-, hc, hl⟩ | ⟨ha, hl⟩ := lifecycle_cases_of_initialised hi
      · rw [hl]
        exact answersRow_of_marked hi (execAppend_flagged hp hi (.inr hx))
      · rw [hl]
        exact answersRow_of_marked hi (execAppend_flagged hp hi (.inl hc))
      · obtain hl | hl := hl <;> rw [hl] <;> exact append_answersRow_of_accepts hs hp ha

/-- The row of `FINISH` on an accepting context (R183). -/
theorem finish_answersRow_of_accepts {s : State} (hs : s.Inv) (ha : s.Accepts) :
    AnswersRow (.finish true true) s (some (.success, .computed)) := by
  obtain ⟨t, he, -, -, -, hc, hx, -, ht⟩ := finishSucceeds s hs ha
  have hi : t.initialised = true := (congrArg State.initialised ht).trans ha.1
  exact answersRow_of_next he (congrArg State.status ht) (lifecycle_of_computed hi hx hc)

/-- The rows of `FINISH` (R183, R185). -/
theorem finish_answersRow (overflow cv ov : Bool) {s : State} (hs : s.Inv) :
    AnswersRow (.finish cv ov) s (transition s.finishOnComputed overflow s.lifecycle (.finish cv ov)) := by
  cases cv with
  | false => exact answersRow_of_unmarked (execFinish_null ov s)
  | true =>
    cases hi : s.initialised with
    | false =>
      rw [lifecycle_of_uninitialised hi]
      exact execFinish_uninitialised ov hi
    | true =>
      simp only [transition, if_neg (lifecycle_ne_uninitialised hi)]
      cases ov with
      | false => exact answersRow_of_marked hi (execFinish_noOutput hi)
      | true =>
        obtain ⟨hx, hl⟩ | ⟨hx, hc, hl⟩ | ⟨ha, hl⟩ := lifecycle_cases_of_initialised hi
        · rw [hl]
          exact answersRow_of_marked hi (execFinish_corrupted hi hx)
        · rw [hl]
          cases hp : s.finishOnComputed with
          | reserialize =>
            exact answersRow_of_next (execFinish_again hi hx hc hp) (deliverDigest_status s) hl
          | stateError => exact answersRow_of_marked hi (execFinish_againRefused hi hx hc hp)
        · obtain hl | hl := hl <;> rw [hl] <;> exact finish_answersRow_of_accepts hs ha

/-- Settles O52, command by command: each answers as its row of the table says. -/
theorem followsLifecycleTable : Obligations.FollowsLifecycleTable := by
  intro i s hs hres
  cases i with
  | init cv => exact init_answersRow _ _ cv s
  | append cv pay => exact append_answersRow _ cv pay hs
  | finish cv ov => exact finish_answersRow _ cv ov hs
  | reserved rest pay => exact absurd rfl (hres rest pay)

end Sys2Proof.Machine
end

section
/-! PROOFS. Errors and statuses (R200 to R206): which command returns which status, and what an error does to the Context;
and the step with nothing to do (R218). -/

namespace Sys2Proof.Machine

/-! ### Marking the context -/

/-- Settles O49, by the effects of the commands: the error entry with a valid reference sets `corrupted`, every effect with
an invalid one keeps the Context, and the others return `Success`. -/
theorem errorsMarkTheContext : Obligations.ErrorsMarkTheContext := by
  intro i s t h
  cases exec_effect h with
  | empty => exact ⟨fun hst => absurd rfl hst, fun _ => rfl⟩
  | unmarked _ _ hi => exact ⟨fun _ hcv => absurd (hi.symm.trans hcv) Bool.false_ne_true, fun _ => rfl⟩
  | marked _ _ _ _ hi => exact ⟨fun _ _ => rfl, by obtain ⟨_, rfl⟩ | ⟨_, rfl⟩ := hi <;> exact nofun⟩
  | overflowed => exact ⟨fun _ _ => rfl, nofun⟩
  | restart | absorbed | delivered | finished => exact ⟨fun hst => absurd rfl hst, nofun⟩

/-! ### The statuses -/

/-- The loop stops with `InputTooLong` exactly when the payload would take the counter past its end (R114, R202). -/
theorem absorbAll_inputTooLong_iff {pay : List Byte} {c c' : Context} {st : Status}
    (h : absorbAll pay c = .ok (c', st)) :
    st = .inputTooLong ↔ c.bitLength.toNat + 8 * pay.length > 2 ^ 64 - 1 := by
  induction pay generalizing c with
  | nil =>
    have hlt := c.bitLength.isLt
    cases h
    simp only [List.length_nil, reduceCtorEq, false_iff]
    omega
  | cons v vs ih =>
    rw [List.length_cons]
    cases ho : lengthWouldOverflow c with
    | true =>
      rw [absorbAll_cons_of_overflow vs ho] at h
      cases h
      have hover := lengthWouldOverflow_iff.1 ho
      simp only [true_iff]
      omega
    | false =>
      cases ha : absorb v c with
      | error f =>
        rw [absorbAll_cons, ho, ha] at h
        cases h
      | ok c1 =>
        rw [absorbAll_cons_of_absorb vs ho ha] at h
        have hlen := absorb_bitLength ha ho
        rw [ih h]
        omega

/-- The statuses of `APPEND` (R204): each error under its own condition. -/
theorem execAppend_status {cv : Bool} {pay : List Byte} {s t : State} (h : execAppend cv pay s = .next t) :
    (t.status = 1 ↔ pay ≠ [] ∧ cv = false) ∧
    (t.status = 2 ↔ pay ≠ [] ∧ cv = true ∧ s.ctx.computed = false ∧ s.ctx.corrupted = false ∧
      s.ctx.bitLength.toNat + 8 * pay.length > 2 ^ 64 - 1) ∧
    (t.status = 3 ↔ pay ≠ [] ∧ cv = true ∧ (s.ctx.computed = true ∨ s.ctx.corrupted = true)) := by
  obtain ⟨rfl, rfl⟩ | ⟨hp, rfl, rfl⟩ | ⟨hp, rfl, -, hf, rfl⟩ | ⟨hp, rfl, ⟨-, hc, hx⟩, c, hl, rfl⟩ |
    ⟨hp, rfl, ⟨-, hc, hx⟩, c, hl, rfl⟩ := execAppend_next h
  · simp [statusCode]
  · simp [statusCode, hp]
  · obtain hf | hf := hf <;> simp [statusCode, hp, hf]
  · have hroom := mt (absorbAll_inputTooLong_iff hl).2 nofun
    simpa [statusCode, hp, hc, hx] using hroom
  · have hover := (absorbAll_inputTooLong_iff hl).1 rfl
    simpa [statusCode, hp, hc, hx] using hover

/-- The statuses of `FINISH` (R204): it reads no payload, so `InputTooLong` is not among them. -/
theorem execFinish_status {cv ov : Bool} {s t : State} (h : execFinish cv ov s = .next t) :
    (t.status = 1 ↔ cv = false ∨ ov = false) ∧ t.status ≠ 2 ∧
    (t.status = 3 ↔ cv = true ∧ ov = true ∧ (s.ctx.corrupted = true ∨
      (s.ctx.computed = true ∧ s.finishOnComputed = .stateError))) := by
  obtain ⟨rfl, rfl⟩ | ⟨rfl, rfl, -, rfl⟩ | ⟨rfl, rfl, -, hx, rfl⟩ | ⟨rfl, rfl, -, hx, -, hp, rfl⟩ |
    ⟨rfl, rfl, -, -, hc, hp, rfl⟩ | ⟨rfl, rfl, ⟨-, hc, hx⟩, c, -, rfl⟩ := execFinish_next h
  · simp [statusCode]
  · simp [statusCode]
  · simp [statusCode, hx]
  · simp [statusCode, hx, hp]
  · simp [statusCode, hc, hp]
  · simp [statusCode, hc, hx]

/-- Settles O50, command by command: `INIT` by the test of its reference, the other two by the cases of their answers. -/
theorem statusesOfCommands : Obligations.StatusesOfCommands := by
  intro i s t h
  refine ⟨?_, ?_, ?_⟩
  · rintro cv rfl
    cases cv <;> exact congrArg State.status (Host.Outcome.next.inj h).symm
  · rintro cv pay rfl
    exact execAppend_status h
  · rintro cv ov rfl
    exact execFinish_status h

/-! ### Waiting -/

/-- Settles O10: an empty queue is the step's first case. -/
theorem coreWaits : Obligations.CoreWaits := by
  intro s hp
  simp only [step, hp]

end Sys2Proof.Machine
end

section
/-! PROOFS. The flag `initialised` (R240, R241), and the two moves the host makes without a command: the write to `OUT`
(R255) and the power-on (R240). -/

namespace Sys2Proof.Machine

/-! ### The flag `initialised` -/

/-- Every command that answers keeps `initialised`, but for the one that sets it. -/
theorem exec_initialised {i : Instr} {s t : State} (h : exec i s = .next t) :
    t.initialised = s.initialised ∨ (i = .init true ∧ t.initialised = true) := by
  cases exec_effect h with
  | restart => exact .inr ⟨rfl, rfl⟩
  | empty | unmarked | marked | absorbed | overflowed | delivered | finished => exact .inl (by simp)

/-- Every step that answers keeps `initialised`, but for a power-on and the one frame that sets it. -/
theorem step_initialised {s t : State} (h : step s = .next t) :
    t.initialised = s.initialised ∨
    ((∃ rest, s.pending = .powerOn :: rest) ∧ t.initialised = false) ∨
    ((∃ rest, s.pending = .frame 0x00000004 [] :: rest) ∧ t.initialised = true) := by
  obtain ⟨-, rfl⟩ | ⟨a, v, rest, -, -, rfl⟩ | ⟨rest, hp, rfl⟩ | ⟨hdr, pay, rest, i, hp, hd, he⟩ := step_next h
  · exact .inl rfl
  · exact .inl rfl
  · exact .inr (.inl ⟨⟨rest, hp⟩, rfl⟩)
  · obtain hkept | ⟨rfl, hset⟩ := exec_initialised he
    · exact .inl hkept
    · obtain ⟨rfl, rfl⟩ := decode_eq_init_iff.1 hd
      exact .inr (.inr ⟨⟨rest, hp⟩, hset⟩)

/-- Settles O13: the flag changes in two cases of a step only, one for each direction. -/
theorem initialisedFromInitToPowerOn : Obligations.InitialisedFromInitToPowerOn := by
  intro s t h
  obtain hkept | ⟨hp, hcleared⟩ | ⟨hp, hset⟩ := step_initialised h
  · simp +contextual [hkept]
  · exact ⟨fun _ _ => hp, by simp [hcleared]⟩
  · exact ⟨by simp [hset], fun _ _ => hp⟩

/-- Settles O15: for each of the two commands the refusal is a case of its meaning. -/
theorem uninitialisedRefused : Obligations.UninitialisedRefused := fun _ hi =>
  ⟨fun _ hpay => execAppend_uninitialised hpay hi, fun ov => execFinish_uninitialised ov hi⟩

/-! ### The host's own moves -/

section
variable {s : State} {a : Nat} {v : Byte} {rest : List HostMove}

theorem step_of_writeOut (hp : s.pending = .writeOut a v :: rest) :
    step s = hostWriteOut a v { s with pending := rest } := by
  simp only [step, hp]

theorem step_of_powerOn (hp : s.pending = .powerOn :: rest) : step s = .next (powerOn { s with pending := rest }) := by
  simp only [step, hp]

theorem hostWriteOut_inside (s : State) (v : Byte) (ha : a < 20) :
    hostWriteOut a v s = .next { s with out := s.out.write a v } := if_pos ha

theorem hostWriteOut_outside (s : State) (v : Byte) (ha : ¬ a < 20) : hostWriteOut a v s = .fault .outAddress :=
  if_neg ha

end

/-- Settles O11: the move is one `Memory.write`, or the fault. -/
theorem hostOverwritesOut : Obligations.HostOverwritesOut := by
  intro s a v rest hp
  rw [step_of_writeOut hp]
  split
  next ha =>
    exact ⟨_, hostWriteOut_inside _ v ha, Memory.read_write_same s.out a v,
      fun _ hb => Memory.read_write_ne s.out v hb, rfl⟩
  next ha => exact hostWriteOut_outside _ v ha

/-- Settles O12: the flag `initialised` is 0, and the free bytes of `BUF` fill the whole space. -/
theorem powerOnUninitialises : Obligations.PowerOnUninitialises := fun _ _ hp =>
  ⟨_, step_of_powerOn hp, lifecycle_of_uninitialised rfl,
    fun _ ha => Memory.read_isSome_of_wf (Memory.wf_filled _ _) ha, rfl, rfl, rfl⟩

end Sys2Proof.Machine
end
